-- ==== Sys2Proof/Word.lean ====
section
/-! DEFINITION. The word types of the hardware: the spec's 8-bit registers and memory bytes (R21, R35), its 16-bit
pc, I, stack entries and instruction words (R23, R24, R27, R70), and the 4- and 12-bit instruction fields (R71). -/

namespace Sys2Proof

/-- A general register, a timer, a byte of memory, the immediate `kk` (R21, R26, R35, R71). -/
abbrev Byte := BitVec 8

/-- `pc`, `I`, a call-stack entry, an instruction word (R23, R24, R27, R70). -/
abbrev Word := BitVec 16

/-- A register index `x` or `y`, all 16 values legal (R71, R73). -/
abbrev Reg := BitVec 4

/-- The 4-bit sprite height `n` (R71). -/
abbrev Nibble := BitVec 4

/-- The 12-bit immediate `nnn` (R71). -/
abbrev Addr12 := BitVec 12

/-- The index of VF, the flag register (R22). -/
abbrev regF : Reg := 0xF#4

end Sys2Proof
end

