-- ==== Sys2Proof/Config.lean ====
section
/-! DEFINITION. What is fixed for the machine: the constants of R7, the OPEN parameters of R7 as plain data (`Params`),
and the two functions of the random generator, which no source gives (R33, D8). -/

namespace Sys2Proof.Config

/-- `MEM_SIZE` (R7, R50; 90_conflicts.md C1). -/
abbrev memSize : Nat := 4096

/-- `PROG_BASE`: where programs are loaded and where pc starts (R7, R59). -/
abbrev progBase : Nat := 0x200

/-- `FONT_BASE` (R7, R57). -/
abbrev fontBase : Nat := 0x100

/-- `FONT_LEN`: 16 glyphs of 5 bytes (R7). -/
abbrev fontLen : Nat := 80

/-- `STACK_DEPTH` (R7, R27). -/
abbrev stackDepth : Nat := 16

/-- `DISP_W` (R7, R29). -/
abbrev dispW : Nat := 64

/-- `DISP_H` (R7, R29). -/
abbrev dispH : Nat := 32

/-- `RNG_SEED`, the seed `init` gives the random generator (R7, R170). -/
abbrev rngSeedValue : Nat := 1234

/-- The state of the random generator. DESIGN CHOICE: a natural number, since the spec leaves `RngState` opaque
(R20, R33, D8) and any finite or countable generator state has such a code. See notes/assumptions/2.md. -/
abbrev RngState := Nat

/-- `RngSeed : Nat -> RngState`, an uninterpreted parameter of the spec (R7, R33, D8). FREE VALUE: no body, so
nothing can be proved of the seeded state. See notes/assumptions/2.md. -/
opaque rngSeed : Nat → RngState

/-- `RngNext : RngState -> (byte, RngState)`, an uninterpreted parameter of the spec (R7, R15, D8). The first
component is the raw draw, which `State.randomByte` reduces below `RND_BOUND`. FREE VALUE: no body, so nothing can be
proved of any draw but its range. See notes/assumptions/2.md. -/
opaque rngNext : RngState → Nat × RngState

/-- The parameters the spec leaves OPEN and gives a default for (R7; 92_eei_decisions.md, "Parameters left OPEN").
"A claim about the hardware must quantify over" them (R7). They stand as plain data in `State.params`, which no
operation writes, so that a statement about every state is a statement about every choice of them.
`CYCLES_PER_FRAME` is not among them: no rule reads it (D21). See notes/assumptions/1.md. -/
structure Params where
  /-- `FONT`, the glyph bytes `reset` writes at 0x100 (R58, D11). -/
  font : Vector Byte fontLen
  /-- `RND_BOUND` is 256 if true and 255 if false (R7, R15, D7). -/
  drawsReach255 : Bool
  /-- `RESET_CLEARS_VF` (R7, R37, D3). -/
  resetClearsVF : Bool
  deriving DecidableEq, Repr

end Sys2Proof.Config
end

