-- ==== Sys2Proof/Machine/Font.lean ====
section
/-! DEFINITION. The spec's defaults for the OPEN parameters (R7): the default `FONT` of R58 and the default bounds. -/

namespace Sys2Proof.Config

/-- Glyphs 0 to 7 of the spec's default `FONT` (R58). PRESUMED by the spec itself (its general-knowledge passage G1). -/
def defaultGlyphsLow : Vector Byte 40 :=
  #v[0xF0#8, 0x90#8, 0x90#8, 0x90#8, 0xF0#8,
     0x20#8, 0x60#8, 0x20#8, 0x20#8, 0x70#8,
     0xF0#8, 0x10#8, 0xF0#8, 0x80#8, 0xF0#8,
     0xF0#8, 0x10#8, 0xF0#8, 0x10#8, 0xF0#8,
     0x90#8, 0x90#8, 0xF0#8, 0x10#8, 0x10#8,
     0xF0#8, 0x80#8, 0xF0#8, 0x10#8, 0xF0#8,
     0xF0#8, 0x80#8, 0xF0#8, 0x90#8, 0xF0#8,
     0xF0#8, 0x10#8, 0x20#8, 0x40#8, 0x40#8]

/-- Glyphs 8 to F of the spec's default `FONT` (R58). PRESUMED by the spec itself (its general-knowledge passage G1). -/
def defaultGlyphsHigh : Vector Byte 40 :=
  #v[0xF0#8, 0x90#8, 0xF0#8, 0x90#8, 0xF0#8,
     0xF0#8, 0x90#8, 0xF0#8, 0x10#8, 0xF0#8,
     0xF0#8, 0x90#8, 0xF0#8, 0x90#8, 0x90#8,
     0xE0#8, 0x90#8, 0xE0#8, 0x90#8, 0xE0#8,
     0xF0#8, 0x80#8, 0x80#8, 0x80#8, 0xF0#8,
     0xE0#8, 0x90#8, 0x90#8, 0x90#8, 0xE0#8,
     0xF0#8, 0x80#8, 0xF0#8, 0x80#8, 0xF0#8,
     0xF0#8, 0x80#8, 0xF0#8, 0x80#8, 0x80#8]

/-- The spec's default for the parameter `FONT` (R7, R58, D11). -/
def defaultFont : Vector Byte fontLen := defaultGlyphsLow ++ defaultGlyphsHigh

/-- The defaults the spec names for the OPEN parameters (R7, R58). -/
def defaultParams : Params :=
  { font := defaultFont, drawsReach255 := false, resetClearsVF := false }

end Sys2Proof.Config
end

