-- ==== Sys2Proof/Machine/State.lean ====
section
/-! DEFINITION. The state of the core (R20) as plain data, the fatal conditions (R185), the refusals, and the state
after a cold reset (R37). -/

namespace Sys2Proof.Machine

open Sys2Proof.Config

/-- The fatal conditions of R185. NO step ends in `.fault`: the spec describes what raising one does (R192: it writes
the fault latch and the core goes on existing, halted), so raising one is a NEXT state, taken by `State.takeFault`. The
names are the values the latch records. Safe: nothing stops where the hardware goes on. -/
inductive Fault where
  /-- Raised by the host operation `load_program` on an image longer than 3584 bytes (R186). -/
  | loadError
  /-- Raised by `2nnn` when `sp = 16` (R187). -/
  | stackOverflow
  /-- Raised by `00EE` when `sp = 0` (R188). -/
  | stackUnderflow
  /-- Raised by the cycle that fetched an illegal word (R189). -/
  | decodeError
  /-- Raised by the fetch and by `Dxyn`, `Fx33`, `Fx55`, `Fx65` on an address of 4096 or more (R190). -/
  | addressError
  /-- Raised by `Ex9E` and `ExA1` when `V[x] > 15` (R191). -/
  | keyIndexError
  deriving DecidableEq, Repr

/-- Why a step may be refused. No instruction of this model is: every arm of `exec` has its meaning. -/
inductive Refusal where
  /-- Raised by an arm of `exec` whose instruction has no meaning yet: none. Safe. -/
  | notModelled (mnemonic : String)
  deriving DecidableEq, Repr

/-- Memory: the bytes that differ from what an unlisted address reads as, addresses strictly rising (R35, R50). -/
abbrev Memory := List Host.Cell

/-- The display: row `py` (0 topmost) is a row of 64 pixels, of which bit `px` (counted from the least significant)
is the pixel at column `px` (0 leftmost), 1 meaning lit (R29). -/
abbrev Display := Vector (BitVec 64) dispH

/-- The whole state of the core (R20), and beside it the OPEN parameters (`params`, the MODEL's own field: R38 makes
them parameters of the step, and `step : State → …` has no other argument to carry them in; no operation writes it). -/
structure State where
  /-- The OPEN parameters of R7. The model's own field, not the spec's; see notes/assumptions/1.md. -/
  params : Params
  /-- `mem[0 .. 4095]` (R35). -/
  mem : Memory
  /-- `V[0 .. 15]` (R21). -/
  v : Vector Byte 16
  /-- `I`, the address register (R23). -/
  i : Word
  /-- `pc` (R24). -/
  pc : Word
  /-- `dt`, the delay timer (R26). -/
  dt : Byte
  /-- `st`, the sound timer (R26). -/
  st : Byte
  /-- `stack[0 .. 15]` (R27). -/
  stack : Vector Word stackDepth
  /-- `sp`, 0 (empty) to 16 (full) (R27, R36). -/
  sp : Fin 17
  /-- `disp` (R29). -/
  disp : Display
  /-- `keys`: bit `k` is 1 while key `k` is down (R31). -/
  keys : BitVec 16
  /-- `wait_key` (R32). -/
  waitKey : Bool
  /-- `key_target` (R32). -/
  keyTarget : Reg
  /-- `rng`, the random generator's state (R33). -/
  rng : RngState
  /-- `halted` (R34). -/
  halted : Bool
  /-- `fault_code`, 0 to 6 (R34, R185). -/
  faultCode : BitVec 3
  /-- `fault_pc` (R34). -/
  faultPc : Word
  /-- `fault_opcode` (R34). -/
  faultOpcode : Word
  deriving DecidableEq, Repr

/-- The machine right after the cold reset `init` (R37, cold column; R211), with the spec's defaults for the OPEN
parameters. Memory lists nothing: an unlisted byte reads as R35's cold contents (`unlistedByte`). -/
def State.reset : State :=
  { params := defaultParams
    mem := []
    v := Vector.replicate 16 0
    i := 0
    pc := 0x200
    dt := 0
    st := 0
    stack := Vector.replicate stackDepth 0
    sp := 0
    disp := Vector.replicate dispH 0
    keys := 0
    waitKey := false
    keyTarget := 0
    rng := rngSeed rngSeedValue
    halted := false
    faultCode := 0
    faultPc := 0
    faultOpcode := 0 }

end Sys2Proof.Machine
end

