-- ==== Sys2Proof/Machine/Ops.lean ====
section
/-! DEFINITION. The named operations over memory, registers, call stack, display, random generator and fault latch.
Every meaning is written over these, and everything a rule says about an access stands here once. -/

namespace Sys2Proof.Machine

open Sys2Proof.Config

/-! ### Memory -/

/-- What an address that memory does not list reads as: the contents after the cold reset (R35, R56), `FONT` at
0x100 .. 0x14F and 0 elsewhere. -/
def unlistedByte (font : Vector Byte fontLen) (a : Nat) : Byte :=
  if h : fontBase ≤ a ∧ a < fontBase + fontLen then font[a - fontBase]'(by omega) else 0

/-- The byte at address `a` (R60: a byte reads back as last written). -/
def memRead (font : Vector Byte fontLen) : Memory → Nat → Byte
  | [], a => unlistedByte font a
  | (k, b) :: m, a => if k = a then b else memRead font m a

/-- Write the byte at address `a`, keeping the canonical form: addresses strictly rising, no entry equal to what an
unlisted address reads as. -/
def memWrite (font : Vector Byte fontLen) : Memory → Nat → Byte → Memory
  | [], a, b => if b = unlistedByte font a then [] else [(a, b)]
  | (k, c) :: m, a, b =>
    if a < k then (if b = unlistedByte font a then (k, c) :: m else (a, b) :: (k, c) :: m)
    else if a = k then (if b = unlistedByte font a then m else (a, b) :: m)
    else (k, c) :: memWrite font m a b

/-- Whether every address listed is at least `lo` and below `MEM_SIZE`, they rise strictly, and no entry equals what an
unlisted address reads as. -/
def Memory.wfFrom (font : Vector Byte fontLen) : Nat → Memory → Bool
  | _, [] => true
  | lo, (k, b) :: m =>
    decide (lo ≤ k) && decide (k < memSize) && b != unlistedByte font k && Memory.wfFrom font (k + 1) m

/-- The canonical form of memory, relative to the parameter `FONT`. -/
def Memory.wf (font : Vector Byte fontLen) (m : Memory) : Bool := Memory.wfFrom font 0 m

/-- The `n` bytes from address `a` up, ascending (R55). -/
def memReadBytes (font : Vector Byte fontLen) (m : Memory) : Nat → Nat → List Byte
  | _, 0 => []
  | a, n + 1 => memRead font m a :: memReadBytes font m (a + 1) n

/-- Write bytes from address `a` up, ascending (R55). -/
def memWriteBytes (font : Vector Byte fontLen) : Memory → Nat → List Byte → Memory
  | m, _, [] => m
  | m, a, b :: bs => memWriteBytes font (memWrite font m a b) (a + 1) bs

/-- Whether an access to the `n` bytes from `a` up is admitted: every byte's address is below `MEM_SIZE`; no byte,
no fault (R53, R146, R151). -/
def accessOk (a n : Nat) : Bool := n = 0 || decide (a + n ≤ memSize)

/-- The byte of memory at `a`, unchecked (R12: `mem[a]`). -/
def State.readByte (s : State) (a : Nat) : Byte := memRead s.params.font s.mem a

/-- Read `n` bytes from `a` up, or none when the access is not admitted and raises AddressError (R12, R53). -/
def State.loadBytes (s : State) (a n : Nat) : Option (List Byte) :=
  if accessOk a n then some (memReadBytes s.params.font s.mem a n) else none

/-- Store bytes from `a` up, or none when the access is not admitted and raises AddressError: then no byte is stored
(R53, R193). -/
def State.storeBytes (s : State) (a : Nat) (bs : List Byte) : Option State :=
  if accessOk a bs.length then some { s with mem := memWriteBytes s.params.font s.mem a bs } else none

/-! ### General registers -/

/-- Read `V[x]` (R21). -/
def State.readV (s : State) (x : Reg) : Byte := s.v[x.toNat]'x.isLt

/-- Write `V[x]` (R21: none is hardwired). -/
def State.writeV (s : State) (x : Reg) (b : Byte) : State := { s with v := s.v.set x.toNat b x.isLt }

/-- The values of `V[0] .. V[x]`, ascending (R144). -/
def State.regsThrough (s : State) (x : Reg) : List Byte := s.v.toList.take (x.toNat + 1)

/-- Write bytes into consecutive registers from register `k` up, ascending (R145). -/
def writeRegsFrom (v : Vector Byte 16) : Nat → List Byte → Vector Byte 16
  | _, [] => v
  | k, b :: bs => writeRegsFrom (v.setIfInBounds k b) (k + 1) bs

/-- Write bytes into `V[0]`, `V[1]`, … (R145). -/
def State.writeRegs (s : State) (bs : List Byte) : State := { s with v := writeRegsFrom s.v 0 bs }

/-! ### Program counter -/

/-- Move pc to the next two bytes: the advance of the fetch (R93) and the effect of a taken skip (R109), mod 2^16. -/
def State.advancePc (s : State) : State := { s with pc := s.pc + 2 }

/-- Skip the next instruction when `c` holds (R109). -/
def State.skipIf (s : State) (c : Bool) : State := if c then s.advancePc else s

/-- Write pc (R102, R103, R108). -/
def State.jumpTo (s : State) (target : Word) : State := { s with pc := target }

/-! ### Call stack -/

/-- Push a return address, or none when `sp = 16` and StackOverflow is raised (R103). -/
def State.push (s : State) (w : Word) : Option State :=
  if h : s.sp.val < 16 then
    some { s with stack := s.stack.set s.sp.val w h, sp := ⟨s.sp.val + 1, by omega⟩ }
  else none

/-- Pop the newest return address, or none when `sp = 0` and StackUnderflow is raised; the slot keeps its bits (R101). -/
def State.pop (s : State) : Option (Word × State) :=
  if h : 0 < s.sp.val then
    some (s.stack[s.sp.val - 1]'(by have := s.sp.isLt; show s.sp.val - 1 < 16; omega), { s with sp := ⟨s.sp.val - 1, by omega⟩ })
  else none

/-! ### Display -/

/-- The pixel at column `px mod 64`, row `py mod 32` (R29: coordinates wrap). -/
def pixel (d : Display) (px py : Nat) : Bool :=
  (d[py % dispH]'(Nat.mod_lt _ (by decide))).getLsbD (px % dispW)

/-- Invert the pixel at column `px mod 64`, row `py mod 32` (R151: XOR 1). -/
def togglePixel (d : Display) (px py : Nat) : Display :=
  d.set (py % dispH) ((d[py % dispH]'(Nat.mod_lt _ (by decide))) ^^^ (1#64 <<< (px % dispW)))
    (Nat.mod_lt _ (by decide))

/-- All pixels 0 (R150). -/
def blankDisplay : Display := Vector.replicate dispH 0

/-- Draw one sprite bit at (px, py): a 0 changes nothing; a 1 inverts the pixel, and a lit pixel turned off is a
collision (R151, R154). The Bool is the collision so far. -/
def drawBit (px py : Nat) (bit : Bool) (acc : Display × Bool) : Display × Bool :=
  if bit then (togglePixel acc.1 px py, acc.2 || pixel acc.1 px py) else acc

/-- Draw columns `k`, `k + 1`, … of one sprite row, `cols` of them; bit 7 is the leftmost pixel (R151, R153). -/
def drawColumns (x0 py : Nat) (b : Byte) : Nat → Nat → Display × Bool → Display × Bool
  | 0, _, acc => acc
  | cols + 1, k, acc => drawColumns x0 py b cols (k + 1) (drawBit (x0 + k) py (b.getLsbD (7 - k)) acc)

/-- Draw one sprite byte, left first (R151). -/
def drawByte (x0 py : Nat) (b : Byte) (acc : Display × Bool) : Display × Bool := drawColumns x0 py b 8 0 acc

/-- Draw sprite bytes in rows `y0`, `y0 + 1`, …, top first (R151). -/
def drawRows (x0 : Nat) : Nat → List Byte → Display × Bool → Display × Bool
  | _, [], acc => acc
  | y0, b :: bs, acc => drawRows x0 (y0 + 1) bs (drawByte x0 y0 b acc)

/-- The display after the sprite and whether any lit pixel was turned off (R151). -/
def drawSprite (x0 y0 : Nat) (rows : List Byte) (d : Display) : Display × Bool := drawRows x0 y0 rows (d, false)

/-! ### Keys and the random generator -/

/-- Whether key `k` is down (R31). -/
def State.keyDown (s : State) (k : BitVec 4) : Bool := s.keys.getLsbD k.toNat

/-- `RND_BOUND` (R7, R15, D7). -/
def rndBound (p : Params) : Nat := if p.drawsReach255 then 256 else 255

/-- `RandomByte()`: `(r, rng') = RngNext(rng); rng <- rng'`, with `0 <= r < RND_BOUND` (R15). -/
def State.randomByte (s : State) : Byte × State :=
  (BitVec.ofNat 8 ((rngNext s.rng).1 % rndBound s.params), { s with rng := (rngNext s.rng).2 })

/-! ### Fatal conditions -/

/-- The `fault_code` of a fatal condition (R185). -/
def Fault.code : Fault → BitVec 3
  | .loadError => 1
  | .stackOverflow => 2
  | .stackUnderflow => 3
  | .decodeError => 4
  | .addressError => 5
  | .keyIndexError => 6

/-- Take a fatal condition: write the fault latch and nothing else (R192, R193). `fpc` and `opcode` are what R192's
table records for the condition. -/
def State.takeFault (f : Fault) (fpc opcode : Word) (s : State) : State :=
  { s with halted := true, faultCode := f.code, faultPc := fpc, faultOpcode := opcode }

/-- Leave the halted state: clear the fault latch. There is no return instruction; only `reset` and `init` do this
(R171, R196). -/
def State.clearLatch (s : State) : State :=
  { s with halted := false, faultCode := 0, faultPc := 0, faultOpcode := 0 }

/-- AddressError at fetch: `fault_pc = a`, `fault_opcode = 0`, pc not advanced (R192). -/
def State.fetchFault (s : State) : State := s.takeFault .addressError s.pc 0

/-- DecodeError in the cycle that fetched `w`, from the state whose pc is already `a + 2`: `fault_pc = a`,
`fault_opcode = w` (R192). -/
def State.decodeFault (s : State) (w : Word) : State := s.takeFault .decodeError (s.pc - 2) w

/-- A fatal condition in the execute phase of `i`, whose pc is already `a + 2`: `fault_pc = a`, `fault_opcode` the
instruction's word, pc stays `a + 2` (R192). -/
def State.executeFault (f : Fault) (i : Instr) (s : State) : State := s.takeFault f (s.pc - 2) (encode i)

/-! ### Fetch -/

/-- The instruction word at pc, big-endian, or none when the fetch raises AddressError (R52, R93). -/
def State.fetchWord (s : State) : Option Word :=
  match s.loadBytes s.pc.toNat 2 with
  | some [hi, lo] => some (wordOfBytes hi lo)
  | _ => none

/-- The state whose next cycle fetches the word `w`: `w` stored at pc, the core neither halted nor stalled. A pc at
which no fetch is admitted is first set to `PROG_BASE`. -/
def State.placeWord (s : State) (w : Word) : State :=
  let pc := if accessOk s.pc.toNat 2 then s.pc else BitVec.ofNat 16 progBase
  { s.clearLatch with
    pc := pc
    waitKey := false
    mem := memWriteBytes s.params.font s.mem pc.toNat [highByte w, lowByte w] }

end Sys2Proof.Machine
end

