-- ==== Sys2Proof/Machine/Flags.lean ====
section
/-! DEFINITION. What the six flag-writing instructions write to VF (R22), and the wrapping results they go with
(R132). -/

namespace Sys2Proof.Machine

/-- A flag as VF holds it: always 0 or 1 (R22). -/
def flagByte (b : Bool) : Byte := if b then 1 else 0

/-- The carry of `8xy4`: the true sum exceeds 255 (R126). -/
def carryFlag (a b : Byte) : Byte := flagByte (decide (a.toNat + b.toNat > 255))

/-- The no-borrow of `8xy5` and `8xy7`: minuend at least subtrahend (R127, R129). -/
def noBorrowFlag (a b : Byte) : Byte := flagByte (decide (a.toNat ≥ b.toNat))

/-- The bit `8xy6` shifts out: bit 0 (R128). -/
def lowBitFlag (a : Byte) : Byte := flagByte (a.getLsbD 0)

/-- The bit `8xyE` shifts out: bit 7 (R130). -/
def highBitFlag (a : Byte) : Byte := flagByte (a.getLsbD 7)

/-- The true sum mod 256 (R132). -/
def wrapSum (a b : Byte) : Byte := BitVec.ofNat 8 (a.toNat + b.toNat)

/-- `a - b` when `a >= b`, else `a - b + 256` (R132). -/
def wrapDifference (a b : Byte) : Byte := BitVec.ofNat 8 (a.toNat + 256 - b.toNat)

/-- Shift right by one, 0 into bit 7 (R132). -/
def shiftRight (a : Byte) : Byte := BitVec.ofNat 8 (a.toNat / 2)

/-- Shift left by one mod 256, 0 into bit 0 (R132). -/
def shiftLeft (a : Byte) : Byte := BitVec.ofNat 8 (2 * a.toNat)

/-- Write a result and then the flag: the order of `8xy4`; when `x` is F the flag remains (R126, R133). -/
def State.writeResultThenFlag (s : State) (x : Reg) (result flag : Byte) : State :=
  (s.writeV x result).writeV regF flag

/-- Write the flag and then the result: the order of `8xy5`, `8xy6`, `8xy7`, `8xyE`; when `x` is F the result remains
(R127 to R130, R133). -/
def State.writeFlagThenResult (s : State) (x : Reg) (flag result : Byte) : State :=
  (s.writeV regF flag).writeV x result

end Sys2Proof.Machine
end

