-- ==== Sys2Proof/Machine/Alu.lean ====
section
/-! DEFINITION. The meanings of the load, arithmetic, logic and random instructions (42_alu.md). Operands are read from
the state as it was before any write (R14). -/

namespace Sys2Proof.Machine

/-- `6xkk` LD Vx, kk (R120). -/
def execLdImm (x : Reg) (kk : Byte) (s : State) : Host.Outcome State Fault Refusal := .next (s.writeV x kk)

/-- `7xkk` ADD Vx, kk: no flag (R121). -/
def execAddImm (x : Reg) (kk : Byte) (s : State) : Host.Outcome State Fault Refusal :=
  .next (s.writeV x (wrapSum (s.readV x) kk))

/-- `8xy0` LD Vx, Vy (R122). -/
def execLdReg (x y : Reg) (s : State) : Host.Outcome State Fault Refusal := .next (s.writeV x (s.readV y))

/-- `8xy1` OR: VF untouched (R123). -/
def execOrReg (x y : Reg) (s : State) : Host.Outcome State Fault Refusal :=
  .next (s.writeV x (s.readV x ||| s.readV y))

/-- `8xy2` AND: VF untouched (R124). -/
def execAndReg (x y : Reg) (s : State) : Host.Outcome State Fault Refusal :=
  .next (s.writeV x (s.readV x &&& s.readV y))

/-- `8xy3` XOR: VF untouched (R125). -/
def execXorReg (x y : Reg) (s : State) : Host.Outcome State Fault Refusal :=
  .next (s.writeV x (s.readV x ^^^ s.readV y))

/-- `8xy4` ADD: the flag is written last (R126). -/
def execAddReg (x y : Reg) (s : State) : Host.Outcome State Fault Refusal :=
  .next (s.writeResultThenFlag x (wrapSum (s.readV x) (s.readV y)) (carryFlag (s.readV x) (s.readV y)))

/-- `8xy5` SUB: the result is written last (R127). -/
def execSubReg (x y : Reg) (s : State) : Host.Outcome State Fault Refusal :=
  .next (s.writeFlagThenResult x (noBorrowFlag (s.readV x) (s.readV y)) (wrapDifference (s.readV x) (s.readV y)))

/-- `8xy6` SHR: shifts Vx, Vy is neither read nor written (R128). -/
def execShr (x _y : Reg) (s : State) : Host.Outcome State Fault Refusal :=
  .next (s.writeFlagThenResult x (lowBitFlag (s.readV x)) (shiftRight (s.readV x)))

/-- `8xy7` SUBN: Vy - Vx (R129). -/
def execSubnReg (x y : Reg) (s : State) : Host.Outcome State Fault Refusal :=
  .next (s.writeFlagThenResult x (noBorrowFlag (s.readV y) (s.readV x)) (wrapDifference (s.readV y) (s.readV x)))

/-- `8xyE` SHL: shifts Vy into Vx (R130). -/
def execShl (x y : Reg) (s : State) : Host.Outcome State Fault Refusal :=
  .next (s.writeFlagThenResult x (highBitFlag (s.readV y)) (shiftLeft (s.readV y)))

/-- `Cxkk` RND: one draw, masked; the draw is consumed whatever `kk` is (R131). -/
def execRnd (x : Reg) (kk : Byte) (s : State) : Host.Outcome State Fault Refusal :=
  .next (s.randomByte.2.writeV x (s.randomByte.1 &&& kk))

end Sys2Proof.Machine
end

