-- ==== Sys2Proof/Machine/Operands.lean ====
section
/-! DEFINITION. Operand forms: zero-extended immediates (R73), the one addressing mode (R146), the key index (R166), the
glyph address (R142), the decimal digits of a byte (R143). -/

namespace Sys2Proof.Machine

open Sys2Proof.Config

/-- `zext_16` (R10, R73). -/
def zext16 {n : Nat} (b : BitVec n) : Word := b.setWidth 16

/-- The effective base address: `I` as a natural number, unreduced (R146). -/
def State.base (s : State) : Nat := s.i.toNat

/-- The key a register value names, or none when it is above 15 and KeyIndexError is raised (R166). -/
def keyIndex (b : Byte) : Option (BitVec 4) := if b.toNat ≤ 15 then some (b.setWidth 4) else none

/-- `FONT_BASE + 5 * Vx`, the whole of Vx, no masking (R142). -/
def glyphAddress (b : Byte) : Word := BitVec.ofNat 16 (fontBase + 5 * b.toNat)

/-- `(I + Vx) mod 2^16` (R141). -/
def indexSum (i : Word) (b : Byte) : Word := BitVec.ofNat 16 (i.toNat + b.toNat)

/-- `(nnn + V0) mod 2^16` (R108). -/
def offsetTarget (nnn : Addr12) (b : Byte) : Word := BitVec.ofNat 16 (nnn.toNat + b.toNat)

/-- Hundreds, tens, ones (R143). -/
def decimalDigits (b : Byte) : List Byte :=
  [BitVec.ofNat 8 (b.toNat / 100), BitVec.ofNat 8 (b.toNat / 10 % 10), BitVec.ofNat 8 (b.toNat % 10)]

end Sys2Proof.Machine
end

