-- ==== Sys2Proof/Machine/ControlFlow.lean ====
section
/-! DEFINITION. The meanings of the control-transfer instructions (41_control_flow.md). In each, `s.pc` is already the
instruction's address plus 2 (R93). -/

namespace Sys2Proof.Machine

/-- `0nnn` SYS: no operation, `nnn` ignored (R100). -/
def execSys (_nnn : Addr12) (s : State) : Host.Outcome State Fault Refusal := .next s

/-- `00EE` RET: pop pc; StackUnderflow when the stack is empty (R101). -/
def execRet (s : State) : Host.Outcome State Fault Refusal :=
  match s.pop with
  | some (w, s') => .next (s'.jumpTo w)
  | none => .next (s.executeFault .stackUnderflow .ret)

/-- `1nnn` JP (R102). -/
def execJp (nnn : Addr12) (s : State) : Host.Outcome State Fault Refusal := .next (s.jumpTo (zext16 nnn))

/-- `2nnn` CALL: push pc, jump; StackOverflow when the stack is full (R103). -/
def execCall (nnn : Addr12) (s : State) : Host.Outcome State Fault Refusal :=
  match s.push s.pc with
  | some s' => .next (s'.jumpTo (zext16 nnn))
  | none => .next (s.executeFault .stackOverflow (.call nnn))

/-- `3xkk` SE Vx, kk (R104). -/
def execSeImm (x : Reg) (kk : Byte) (s : State) : Host.Outcome State Fault Refusal :=
  .next (s.skipIf (s.readV x == kk))

/-- `4xkk` SNE Vx, kk (R105). -/
def execSneImm (x : Reg) (kk : Byte) (s : State) : Host.Outcome State Fault Refusal :=
  .next (s.skipIf (s.readV x != kk))

/-- `5xy0` SE Vx, Vy (R106). -/
def execSeReg (x y : Reg) (s : State) : Host.Outcome State Fault Refusal :=
  .next (s.skipIf (s.readV x == s.readV y))

/-- `9xy0` SNE Vx, Vy (R107). -/
def execSneReg (x y : Reg) (s : State) : Host.Outcome State Fault Refusal :=
  .next (s.skipIf (s.readV x != s.readV y))

/-- `Bnnn` JP V0, nnn: the offset register is always V0 (R108). -/
def execJpV0 (nnn : Addr12) (s : State) : Host.Outcome State Fault Refusal :=
  .next (s.jumpTo (offsetTarget nnn (s.readV 0)))

end Sys2Proof.Machine
end

