-- ==== Sys2Proof/Machine/Display.lean ====
section
/-! DEFINITION. The meanings of the display instructions (44_display.md). -/

namespace Sys2Proof.Machine

/-- `00E0` CLS: every pixel 0, nothing else (R150). -/
def execCls (s : State) : Host.Outcome State Fault Refusal := .next { s with disp := blankDisplay }

/-- `Dxyn` DRW: XOR an n-row sprite at (Vx, Vy), both read before VF is written; VF is the collision flag and is written
even when n = 0, which reads no memory and cannot fault (R151, R133). -/
def execDrw (x y : Reg) (n : Nibble) (s : State) : Host.Outcome State Fault Refusal :=
  match s.loadBytes s.base n.toNat with
  | some rows =>
    let drawn := drawSprite (s.readV x).toNat (s.readV y).toNat rows s.disp
    .next (State.writeV { s with disp := drawn.1 } regF (flagByte drawn.2))
  | none => .next (s.executeFault .addressError (.drw x y n))

end Sys2Proof.Machine
end

