-- ==== Sys2Proof/Machine/IndexMemory.lean ====
section
/-! DEFINITION. The meanings of the address-register and memory instructions (43_index_memory.md). `I` is never changed
by an access, and the whole address range is checked before anything is written (R146). -/

namespace Sys2Proof.Machine

/-- `Annn` LD I, nnn (R140). -/
def execLdI (nnn : Addr12) (s : State) : Host.Outcome State Fault Refusal := .next { s with i := zext16 nnn }

/-- `Fx1E` ADD I, Vx: mod 2^16, no flag (R141). -/
def execAddIVx (x : Reg) (s : State) : Host.Outcome State Fault Refusal :=
  .next { s with i := indexSum s.i (s.readV x) }

/-- `Fx29` LD F, Vx (R142). -/
def execLdFVx (x : Reg) (s : State) : Host.Outcome State Fault Refusal :=
  .next { s with i := glyphAddress (s.readV x) }

/-- `Fx33` LD B, Vx: three decimal digits to I, I+1, I+2 (R143). -/
def execLdBVx (x : Reg) (s : State) : Host.Outcome State Fault Refusal :=
  match s.storeBytes s.base (decimalDigits (s.readV x)) with
  | some s' => .next s'
  | none => .next (s.executeFault .addressError (.ldBVx x))

/-- `Fx55` LD [I], Vx: store V0 to Vx, x included (R144). -/
def execLdMemVx (x : Reg) (s : State) : Host.Outcome State Fault Refusal :=
  match s.storeBytes s.base (s.regsThrough x) with
  | some s' => .next s'
  | none => .next (s.executeFault .addressError (.ldMemVx x))

/-- `Fx65` LD Vx, [I]: load V0 to Vx, x included (R145). -/
def execLdVxMem (x : Reg) (s : State) : Host.Outcome State Fault Refusal :=
  match s.loadBytes s.base (x.toNat + 1) with
  | some bs => .next (s.writeRegs bs)
  | none => .next (s.executeFault .addressError (.ldVxMem x))

end Sys2Proof.Machine
end

