-- ==== Sys2Proof/Machine/KeysTimers.lean ====
section
/-! DEFINITION. The meanings of the key and timer instructions (45_keys_timers.md). -/

namespace Sys2Proof.Machine

/-- `Ex9E` SKP Vx: skip if the key is down; KeyIndexError when Vx > 15 (R160, R166). -/
def execSkp (x : Reg) (s : State) : Host.Outcome State Fault Refusal :=
  match keyIndex (s.readV x) with
  | some k => .next (s.skipIf (s.keyDown k))
  | none => .next (s.executeFault .keyIndexError (.skp x))

/-- `ExA1` SKNP Vx: skip if the key is up; KeyIndexError when Vx > 15 (R161, R166). -/
def execSknp (x : Reg) (s : State) : Host.Outcome State Fault Refusal :=
  match keyIndex (s.readV x) with
  | some k => .next (s.skipIf (!s.keyDown k))
  | none => .next (s.executeFault .keyIndexError (.sknp x))

/-- `Fx07` LD Vx, DT (R162). -/
def execLdVxDt (x : Reg) (s : State) : Host.Outcome State Fault Refusal := .next (s.writeV x s.dt)

/-- `Fx0A` LD Vx, K: set the wait-key latch; the register is written by the host's key event (R163, R175). -/
def execLdVxK (x : Reg) (s : State) : Host.Outcome State Fault Refusal :=
  .next { s with waitKey := true, keyTarget := x }

/-- `Fx15` LD DT, Vx (R164). -/
def execLdDtVx (x : Reg) (s : State) : Host.Outcome State Fault Refusal := .next { s with dt := s.readV x }

/-- `Fx18` LD ST, Vx (R165). -/
def execLdStVx (x : Reg) (s : State) : Host.Outcome State Fault Refusal := .next { s with st := s.readV x }

end Sys2Proof.Machine
end

