-- ==== Sys2Proof/Machine/Step.lean ====
section
/-! DEFINITION. One `cycle` (R90), and how a word is placed for the next one to fetch. -/

namespace Sys2Proof.Machine

/-- `cycle()` (R90): nothing while halted (R91) or stalled (R92); else fetch (R93), advance pc, decode (R94), execute
(R95). A fetch or decode that raises a fatal condition takes it (R192). -/
def step (s : State) : Host.Outcome State Fault Refusal :=
  if s.halted then .next s
  else if s.waitKey then .next s
  else
    match s.fetchWord with
    | none => .next s.fetchFault
    | some w =>
      match decodeWord w with
      | .error _ => .next (s.advancePc.decodeFault w)
      | .ok i => exec i s.advancePc

/-- `s` with the table's word stored where `step` fetches its next instruction, so that the very next step runs it.
Programs come to run through the host's `load_program` (R172, R213), for which this stands: notes/assumptions/12.md. -/
def State.withFetchWord (s : State) (nbits w : Nat) : State := s.placeWord (tableWord nbits w)

end Sys2Proof.Machine
end

