-- ==== Sys2Proof/Machine/HostOps.lean ====
section
/-! DEFINITION. The operations the core offers its host (46_host_operations.md), each one atomic transition (R19), and
the host as an agent that takes them in any order (R178). `cycle` is `step`. -/

namespace Sys2Proof.Machine

open Sys2Proof.Config

/-- `reset()`: the warm reset (R171, R37). Memory outside the font range, the stack's slots (D23), `rng` and, unless
`RESET_CLEARS_VF`, VF keep what they held. -/
def hostReset (s : State) : State :=
  { s.clearLatch with
    v := if s.params.resetClearsVF then Vector.replicate 16 0
         else (Vector.replicate 16 0).set 15 (s.readV regF)
    sp := 0
    disp := blankDisplay
    mem := memWriteBytes s.params.font s.mem fontBase s.params.font.toList
    i := 0
    dt := 0
    st := 0
    pc := BitVec.ofNat 16 progBase
    keys := 0
    waitKey := false
    keyTarget := 0 }

/-- All of memory 0, the font range too, in canonical form. -/
def zeroMemory (font : Vector Byte fontLen) : Memory :=
  memWriteBytes font [] fontBase (List.replicate fontLen 0)

/-- Every field of the state 0, the parameters kept: how `init` begins (R170). -/
def zeroState (p : Params) : State :=
  { params := p
    mem := zeroMemory p.font
    v := Vector.replicate 16 0
    i := 0
    pc := 0
    dt := 0
    st := 0
    stack := Vector.replicate stackDepth 0
    sp := 0
    disp := blankDisplay
    keys := 0
    waitKey := false
    keyTarget := 0
    rng := 0
    halted := false
    faultCode := 0
    faultPc := 0
    faultOpcode := 0 }

/-- `init()`: the cold reset: zero everything, `reset()`, seed the generator (R170). It may be called in any state and
keeps nothing of it but the machine's parameters. -/
def hostInit (s : State) : State :=
  { hostReset (zeroState s.params) with rng := rngSeed rngSeedValue }

/-- The longest image `load_program` admits: `MEM_SIZE - PROG_BASE` = 3584 bytes (R172). -/
abbrev maxImage : Nat := memSize - progBase

/-- `load_program(bytes)` (R172): nothing while halted; LoadError on an image over 3584 bytes, which copies nothing
(R186, R192); else the bytes go to 0x200 up and nothing else changes. -/
def hostLoadProgram (bytes : List Byte) (s : State) : State :=
  if s.halted then s
  else if bytes.length > maxImage then s.takeFault .loadError 0 0
  else { s with mem := memWriteBytes s.params.font s.mem progBase bytes }

/-- Decrement, floored at zero (R174). -/
def countDown (t : Byte) : Byte := BitVec.ofNat 8 (t.toNat - 1)

/-- `tick_60hz()` (R174): both timers count down, stalled or not; nothing while halted. -/
def hostTick (s : State) : State :=
  if s.halted then s else { s with dt := countDown s.dt, st := countDown s.st }

/-- The key mask with key `k` down or up (R175). -/
def setKey (keys : BitVec 16) (k : BitVec 4) (isDown : Bool) : BitVec 16 :=
  if isDown then keys ||| (1#16 <<< k.toNat) else keys &&& ~~~(1#16 <<< k.toNat)

/-- `set_key_state(key, is_down)` (R175): nothing while halted; sets the key's bit, and a down-edge while the wait-key
latch is set writes the key into the target register and clears the latch. The key is a 4-bit value: the host never
passes more (D20, U13). -/
def hostSetKeyState (k : BitVec 4) (isDown : Bool) (s : State) : State :=
  if s.halted then s
  else
    let s' : State := { s with keys := setKey s.keys k isDown }
    if isDown && !s.keyDown k && s.waitKey then { s'.writeV s.keyTarget (k.setWidth 8) with waitKey := false }
    else s'

/-- `get_pixel(x, y)`: the bit at wrapped coordinates (R176). -/
def getPixel (s : State) (x y : Nat) : Bool := pixel s.disp x y

/-- `is_buzzer_active`: `st > 0` (R177). -/
def isBuzzerActive (s : State) : Bool := decide (s.st.toNat > 0)

/-- The transitions of the machine: the core's `cycle` and the host's operations (R173, R178, R179). The outputs
`get_pixel` and `is_buzzer_active` change nothing and are functions, not transitions. -/
inductive HostOp where
  | init
  | reset
  | loadProgram (bytes : List Byte)
  | cycle
  | tick
  | setKeyState (k : BitVec 4) (isDown : Bool)
  deriving DecidableEq, Repr

/-- One transition of the machine and its host. -/
def hostStep (op : HostOp) (s : State) : Host.Outcome State Fault Refusal :=
  match op with
  | .init => .next (hostInit s)
  | .reset => .next (hostReset s)
  | .loadProgram bytes => .next (hostLoadProgram bytes s)
  | .cycle => step s
  | .tick => .next (hostTick s)
  | .setKeyState k isDown => .next (hostSetKeyState k isDown s)

/-- A schedule: operations one after another, each atomic, in an order the host chooses (R178). -/
def runSchedule : List HostOp → State → Host.Outcome State Fault Refusal
  | [], s => .next s
  | op :: ops, s =>
    match hostStep op s with
    | .next s' => runSchedule ops s'
    | .fault f => .fault f
    | .refused r => .refused r

end Sys2Proof.Machine
end

