-- ==== Sys2Proof/Safety.lean ====
section
/-! DEFINITION. The terms claims use: the invariant of the reachable states (R39), what an instruction may change
(its footprint, R21 to R34), when a state is stopped, stalled or finished (R97, R207), what no program can see (R28), and
which pixels a sprite covers
(R151 to R153). -/

namespace Sys2Proof.Machine

open Sys2Proof.Config

/-! ### The invariant (R39) -/

/-- What R39 says of every state reachable from `init`, beside what the types already say: memory keeps its canonical
form; `pc <= 0x10FE` (b); every value in use on the call stack is at most 0x1000 (f); the fault latch is clear while the
core runs and holds one of the codes 1 to 6 while it is halted (R36, R185, R192). -/
structure State.Inv (s : State) : Prop where
  memoryCanonical : Memory.wf s.params.font s.mem = true
  pcBound : s.pc.toNat ≤ 0x10FE
  stackBound : ∀ k (h : k < 16), k < s.sp.val → (s.stack[k]'h).toNat ≤ 0x1000
  latchClear : s.halted = false → s.faultCode = 0 ∧ s.faultPc = 0 ∧ s.faultOpcode = 0
  latchSet : s.halted = true → 1 ≤ s.faultCode.toNat ∧ s.faultCode.toNat ≤ 6

/-! ### Running, stalled, finished (R97, R207) -/

/-- The core is neither halted nor stalled, so a cycle fetches (R90). A safe run is one of states that are not
halted: a halted state is never a successful end (R97, R195). -/
def State.Running (s : State) : Prop := s.halted = false ∧ s.waitKey = false

/-- What "finished" means in this model (R97 (b)): the next cycle fetches a jump to itself. -/
def State.AtSelfJump (s : State) : Prop :=
  s.Running ∧ ∃ nnn : Addr12, s.fetchWord = some (0x1#4 ++ nnn) ∧ s.pc = zext16 nnn

/-! ### Sequences of execute phases -/

/-- The execute phases of instructions one after another. -/
def execSeq : List Instr → State → Host.Outcome State Fault Refusal
  | [], s => .next s
  | i :: is, s =>
    match exec i s with
    | .next s' => execSeq is s'
    | .fault f => .fault f
    | .refused r => .refused r

/-! ### Footprints -/

/-- What an instruction may change: registers, bytes of memory, and whether each other part of the state. -/
structure Footprint where
  regs : List Reg := []
  bytes : List Nat := []
  index : Bool := false
  pc : Bool := false
  delay : Bool := false
  sound : Bool := false
  stack : Bool := false
  display : Bool := false
  wait : Bool := false
  random : Bool := false
  latch : Bool := false

/-- `t` differs from `s` at most where the footprint says; every other register, byte of memory and part of the state
is the same. Keys and parameters are the same always: no instruction writes them (R31, R38). -/
structure Frame (f : Footprint) (s t : State) : Prop where
  params : t.params = s.params
  keys : t.keys = s.keys
  regs : ∀ r, r ∉ f.regs → t.readV r = s.readV r
  memory : ∀ a, a ∉ f.bytes → t.readByte a = s.readByte a
  index : f.index = false → t.i = s.i
  pc : f.pc = false → t.pc = s.pc
  delay : f.delay = false → t.dt = s.dt
  sound : f.sound = false → t.st = s.st
  stack : f.stack = false → t.stack = s.stack ∧ t.sp = s.sp
  display : f.display = false → t.disp = s.disp
  wait : f.wait = false → t.waitKey = s.waitKey ∧ t.keyTarget = s.keyTarget
  random : f.random = false → t.rng = s.rng
  latch : f.latch = false → t.halted = s.halted ∧ t.faultCode = s.faultCode ∧ t.faultPc = s.faultPc ∧
    t.faultOpcode = s.faultOpcode

/-- `t` is `s` with the fatal condition `f` raised: the core halted with `f`'s code, and nothing but the fault latch
changed (R185, R192, R193). -/
def Raised (f : Fault) (s t : State) : Prop :=
  t.halted = true ∧ t.faultCode = f.code ∧ Frame { latch := true } s t

/-- The addresses of `n` bytes from `a` up. -/
def addressesFrom (a n : Nat) : List Nat := (List.range n).map (a + ·)

/-- Registers `V[0]` to `V[x]`. -/
def regsUpTo (x : Reg) : List Reg := (List.range (x.toNat + 1)).map (BitVec.ofNat 4)

/-- Which register, byte or part of the state each instruction may change in its execute phase, read off R21 to R34
and R185 (which instruction can raise a fatal condition). Stored bytes are those from `I` up that the meaning stores
to. -/
def footprint (i : Instr) (s : State) : Footprint :=
  match i with
  | .cls => { display := true }
  | .sys _ => {}
  | .ret => { pc := true, stack := true, latch := true }
  | .call _ => { pc := true, stack := true, latch := true }
  | .jp _ | .jpV0 _ => { pc := true }
  | .seImm _ _ | .sneImm _ _ | .seReg _ _ | .sneReg _ _ => { pc := true }
  | .skp _ | .sknp _ => { pc := true, latch := true }
  | .ldImm x _ | .addImm x _ => { regs := [x] }
  | .ldReg x _ | .orReg x _ | .andReg x _ | .xorReg x _ => { regs := [x] }
  | .addReg x _ | .subReg x _ | .shr x _ | .subnReg x _ | .shl x _ => { regs := [x, regF] }
  | .rnd x _ => { regs := [x], random := true }
  | .ldI _ | .addIVx _ | .ldFVx _ => { index := true }
  | .drw _ _ _ => { regs := [regF], display := true, latch := true }
  | .ldVxDt x => { regs := [x] }
  | .ldVxK _ => { wait := true }
  | .ldDtVx _ => { delay := true }
  | .ldStVx _ => { sound := true }
  | .ldBVx _ => { bytes := addressesFrom s.base 3, latch := true }
  | .ldMemVx x => { bytes := addressesFrom s.base (x.toNat + 1), latch := true }
  | .ldVxMem x => { regs := regsUpTo x, latch := true }

/-! ### Dead stack slots (R28) -/

/-- The states agree in everything but stack slots at and above sp. -/
def State.SameButDeadSlots (s t : State) : Prop :=
  t = { s with stack := t.stack } ∧ ∀ k (h : k < 16), k < s.sp.val → t.stack[k]'h = s.stack[k]'h

/-! ### Sprites -/

/-- Whether the sprite of `n` bytes at `I`, drawn with its corner at (x0, y0), has a 1 bit at the pixel (px, py): some
row `r` and column `k` (bit `7 - k`) land there under wrap-around (R151, R152, R153). -/
def State.SpriteCovers (s : State) (x0 y0 n px py : Nat) : Prop :=
  ∃ r k, r < n ∧ k < 8 ∧ (s.readByte (s.base + r)).getLsbD (7 - k) = true ∧
    (x0 + k) % dispW = px ∧ (y0 + r) % dispH = py

end Sys2Proof.Machine
end

