-- ==== Sys2Proof/Certificates/Slice0/Obligations.lean ====
section
/-! DEFINITION. The statements for the provers. In every statement about `exec`, `s.pc` is the instruction's address
plus 2 (R93), so the instruction's address is `s.pc - 2`. Every statement holds for every choice of the OPEN parameters
(`State.params`) and of the free values (`Config.rngSeed`, `Config.rngNext`). -/

open Sys2Proof Sys2Proof.Machine Sys2Proof.Config

/-! ### Encoding -/

/-- The decode vectors of 95_test_vectors.md 2.1 and words written out from the patterns of R74. -/
def Obligations.SampleWordsDecode : Prop :=
  decodeWord 0x0000#16 = .ok (.sys 0x000#12) ∧ decodeWord 0x00E0#16 = .ok .cls ∧
  decodeWord 0x00EE#16 = .ok .ret ∧ decodeWord 0x0FFF#16 = .ok (.sys 0xFFF#12) ∧
  decodeWord 0x2DEF#16 = .ok (.call 0xDEF#12) ∧ decodeWord 0x332A#16 = .ok (.seImm 3#4 0x2A#8) ∧
  decodeWord 0x5AB0#16 = .ok (.seReg 0xA#4 0xB#4) ∧ decodeWord 0x5AB1#16 = .error .family5 ∧
  decodeWord 0x8ABE#16 = .ok (.shl 0xA#4 0xB#4) ∧ decodeWord 0x8AB8#16 = .error .family8 ∧
  decodeWord 0x9AB0#16 = .ok (.sneReg 0xA#4 0xB#4) ∧ decodeWord 0xA2F0#16 = .ok (.ldI 0x2F0#12) ∧
  decodeWord 0xC10F#16 = .ok (.rnd 1#4 0x0F#8) ∧ decodeWord 0xD015#16 = .ok (.drw 0#4 1#4 5#4) ∧
  decodeWord 0xE1A1#16 = .ok (.sknp 1#4) ∧ decodeWord 0xE19F#16 = .error .familyE ∧
  decodeWord 0xF165#16 = .ok (.ldVxMem 1#4) ∧ decodeWord 0xF175#16 = .error .familyF

/-- Decode and encode agree for every instruction: the bytes of a well-formed instruction, whatever follows them, decode
to it and leave what follows (R70, R74, R75). -/
def Obligations.DecodeOfEncodedBytes : Prop :=
  ∀ (i : Instr) (rest : List Byte), i.wellFormed = true → decode (encodeBytes i ++ rest) = .ok (i, rest)

/-- The other direction: a word that decodes is the word of what it decodes to, so no two words are one instruction and
no bit is dropped (R74, R75, R79: the ignored fields are kept). -/
def Obligations.EncodeOfDecodedWord : Prop :=
  ∀ (w : Word) (i : Instr), decodeWord w = .ok i → encode i = w ∧ i.wellFormed = true

/-- The illegal words are exactly the five families of R76. -/
def Obligations.IllegalWordsExactly : Prop :=
  ∀ w : Word, (∃ r, decodeWord w = .error r) ↔
    (w.extractLsb' 12 4 = 0x5#4 ∧ w.extractLsb' 0 4 ≠ 0x0#4) ∨
    (w.extractLsb' 12 4 = 0x8#4 ∧
      w.extractLsb' 0 4 ∈ [0x8#4, 0x9#4, 0xA#4, 0xB#4, 0xC#4, 0xD#4, 0xF#4]) ∨
    (w.extractLsb' 12 4 = 0x9#4 ∧ w.extractLsb' 0 4 ≠ 0x0#4) ∨
    (w.extractLsb' 12 4 = 0xE#4 ∧ w.extractLsb' 0 8 ∉ [0x9E#8, 0xA1#8]) ∨
    (w.extractLsb' 12 4 = 0xF#4 ∧ w.extractLsb' 0 8 ∉
      [0x07#8, 0x0A#8, 0x15#8, 0x18#8, 0x1E#8, 0x29#8, 0x33#8, 0x55#8, 0x65#8])

/-- A word decodes to an instruction of a row it matches, and of the rows it matches no two are different but for SYS,
over which CLS and RET win (R74, R75). -/
def Obligations.DecodeFollowsOpcodeMap : Prop :=
  ∀ (w : Word) (i : Instr), decodeWord w = .ok i →
    w &&& tableMask i = tableMatch i ∧
    ∀ j : Instr, w &&& tableMask j = tableMatch j →
      (tableMask j = tableMask i ∧ tableMatch j = tableMatch i) ∨ (i = .cls ∨ i = .ret) ∧ ∃ nnn, j = .sys nnn

/-! ### The cycle -/

/-- A step runs the decoded instruction: from a running state whose two bytes at pc decode to `i`, the step is `exec i`
with pc already moved past the two bytes and nothing else changed (R93, R94, R95). -/
def Obligations.StepRunsDecodedInstruction : Prop :=
  ∀ (s : State) (i : Instr), s.halted = false → s.waitKey = false → s.pc.toNat < 0xFFF →
    decodeWord (s.readByte s.pc.toNat ++ s.readByte (s.pc.toNat + 1)) = .ok i →
    step s = exec i { s with pc := s.pc + 2 }

/-- The fetch: below 0xFFF the big-endian pair of bytes, with pc advanced before anything the word does, a decode fault
included; at 0xFFF and above AddressError with pc not advanced (R93). AddressError and what the latch records are the
spec's own decisions D2, D16, D17. -/
def Obligations.FetchAdvancesOrFaults : Prop :=
  ∀ s : State, s.halted = false → s.waitKey = false →
    (s.pc.toNat < 0xFFF →
      step s = match decodeWord (s.readByte s.pc.toNat ++ s.readByte (s.pc.toNat + 1)) with
        | .ok i => exec i { s with pc := s.pc + 2 }
        | .error _ => .next { s with pc := s.pc + 2, halted := true, faultCode := 4, faultPc := s.pc, faultOpcode := s.readByte s.pc.toNat ++ s.readByte (s.pc.toNat + 1) }) ∧
    (0xFFF ≤ s.pc.toNat →
      step s = .next { s with halted := true, faultCode := 5, faultPc := s.pc, faultOpcode := 0 })

/-- DecodeError is raised by the cycle that fetches an illegal word, and by no other cycle (R189; `ProgramLoaded` says
what loading raises). That a raised condition is a next state, halted and with a code, and the number of the code, are
the model's reading of the spec's decision D16 (notes/assumptions/9.md). -/
def Obligations.IllegalWordRaisesDecodeError : Prop :=
  (∀ (s : State) (r : Reject), s.halted = false → s.waitKey = false → s.pc.toNat < 0xFFF →
    decodeWord (s.readByte s.pc.toNat ++ s.readByte (s.pc.toNat + 1)) = .error r →
    ∃ t, step s = .next t ∧ Raised .decodeError s.advancePc t) ∧
  (∀ s t : State, s.halted = false → step s = .next t → t.halted = true → t.faultCode = Fault.decodeError.code →
    s.pc.toNat < 0xFFF ∧
    ∃ r, decodeWord (s.readByte s.pc.toNat ++ s.readByte (s.pc.toNat + 1)) = .error r)

/-- A cycle of a halted or stalled core changes nothing (R92; for the halted core R91, the spec's decision D27). -/
def Obligations.HaltedOrStalledCycleDoesNothing : Prop :=
  ∀ s : State, s.halted = true ∨ s.waitKey = true → step s = .next s

/-- Every cycle is a transition, and every instruction executes from every state: nothing stops (R75, R90). That
a fatal condition is a next state is the model's reading of D16 and D27 (notes/assumptions/9.md). -/
def Obligations.EveryCycleAnswers : Prop :=
  (∀ (i : Instr) (s : State), ∃ t, exec i s = .next t) ∧ ∀ s : State, ∃ t, step s = .next t

/-! ### Control flow -/

/-- `0nnn`: only pc has moved, which the fetch did (R100). -/
def Obligations.SysDoesNothing : Prop :=
  ∀ (nnn : Addr12) (s : State), nnn ≠ 0x0E0#12 → nnn ≠ 0x0EE#12 →
    decodeWord (0x0#4 ++ nnn) = .ok (.sys nnn) ∧ exec (.sys nnn) s = .next s

/-- `2nnn`: push the post-increment pc and jump; the 17th nested call is StackOverflow and changes nothing else (R103).
That StackOverflow is a next state, halted and with a code, is the model's reading of the spec's decision D16
(notes/assumptions/9.md). -/
def Obligations.CallPushesReturnAddress : Prop :=
  ∀ (nnn : Addr12) (s : State), decodeWord (0x2#4 ++ nnn) = .ok (.call nnn) ∧
    (∀ h : s.sp.val < 16, ∃ t, exec (.call nnn) s = .next t ∧
      t.pc.toNat = nnn.toNat ∧ t.sp.val = s.sp.val + 1 ∧ t.stack[s.sp.val]'h = s.pc ∧
      (∀ k (hk : k < 16), k ≠ s.sp.val → t.stack[k]'hk = s.stack[k]'hk) ∧
      Frame { pc := true, stack := true } s t) ∧
    (s.sp.val = 16 → ∃ t, exec (.call nnn) s = .next t ∧ Raised .stackOverflow s t)

/-- `00EE`: pop pc; on an empty stack StackUnderflow, which changes nothing else (R101, R188). That the popped slot keeps
its bits is the model's choice among those D23 admits (notes/assumptions/8.md); that StackUnderflow is a next state,
halted and with a code, is its reading of the spec's decision D16 (notes/assumptions/9.md). -/
def Obligations.RetPopsReturnAddress : Prop :=
  decodeWord 0x00EE#16 = .ok .ret ∧ ∀ s : State,
    (∀ h : 0 < s.sp.val, ∃ t, exec .ret s = .next t ∧ t.sp.val + 1 = s.sp.val ∧
      t.pc = s.stack[s.sp.val - 1]'(Nat.lt_of_lt_of_le (Nat.sub_lt h Nat.one_pos) (Nat.lt_succ_iff.mp s.sp.isLt)) ∧
      t.stack = s.stack ∧ Frame { pc := true, stack := true } s t) ∧
    (s.sp.val = 0 → ∃ t, exec .ret s = .next t ∧ Raised .stackUnderflow s t)

/-- A return undoes a call: pc is the address after the call and sp what it was (R101, R103, R110). -/
def Obligations.ReturnUndoesCall : Prop :=
  ∀ (nnn : Addr12) (s : State), s.sp.val < 16 →
    ∃ t u, exec (.call nnn) s = .next t ∧ exec .ret t = .next u ∧ u = { s with stack := u.stack } ∧
      ∀ k (hk : k < 16), k < s.sp.val → u.stack[k]'hk = s.stack[k]'hk

/-- As many nested calls as the stack has room for succeed, sixteen from an empty one, and the next is StackOverflow,
which pushes nothing and does not jump (R187). That StackOverflow is a next state, halted and with a code, is the model's
reading of the spec's decision D16 (notes/assumptions/9.md). -/
def Obligations.CallsSucceedUntilStackFull : Prop :=
  ∀ (targets : List Addr12) (s : State), s.halted = false → s.sp.val + targets.length ≤ 16 →
    ∃ t, execSeq (targets.map .call) s = .next t ∧ t.halted = false ∧ t.sp.val = s.sp.val + targets.length ∧
      (s.sp.val + targets.length = 16 → ∀ nnn : Addr12, ∃ u, exec (.call nnn) t = .next u ∧ Raised .stackOverflow t u)

/-- `1nnn` and `Bnnn`: pc is nnn, or nnn + V0 unreduced (R102, R108). -/
def Obligations.JumpsSetPc : Prop :=
  ∀ (nnn : Addr12) (s : State),
    decodeWord (0x1#4 ++ nnn) = .ok (.jp nnn) ∧ decodeWord (0xB#4 ++ nnn) = .ok (.jpV0 nnn) ∧
    (∃ t, exec (.jp nnn) s = .next t ∧ t.pc.toNat = nnn.toNat ∧ Frame { pc := true } s t) ∧
    (∃ t, exec (.jpV0 nnn) s = .next t ∧ t.pc.toNat = nnn.toNat + (s.readV 0).toNat ∧ Frame { pc := true } s t)

/-- `3xkk` and `4xkk`: pc moves two further exactly when Vx = kk, exactly when Vx differs from kk (R104, R105). -/
def Obligations.ImmediateSkips : Prop :=
  ∀ (x : Reg) (kk : Byte) (s : State),
    decodeWord (0x3#4 ++ x ++ kk) = .ok (.seImm x kk) ∧ decodeWord (0x4#4 ++ x ++ kk) = .ok (.sneImm x kk) ∧
    (∃ t, exec (.seImm x kk) s = .next t ∧ t.pc = (if s.readV x = kk then s.pc + 2 else s.pc) ∧
      Frame { pc := true } s t) ∧
    (∃ t, exec (.sneImm x kk) s = .next t ∧ t.pc = (if s.readV x = kk then s.pc else s.pc + 2) ∧
      Frame { pc := true } s t)

/-- `5xy0` and `9xy0` (R106, R107). -/
def Obligations.RegisterSkips : Prop :=
  ∀ (x y : Reg) (s : State),
    decodeWord (0x5#4 ++ x ++ y ++ 0x0#4) = .ok (.seReg x y) ∧
    decodeWord (0x9#4 ++ x ++ y ++ 0x0#4) = .ok (.sneReg x y) ∧
    (∃ t, exec (.seReg x y) s = .next t ∧ t.pc = (if s.readV x = s.readV y then s.pc + 2 else s.pc) ∧
      Frame { pc := true } s t) ∧
    (∃ t, exec (.sneReg x y) s = .next t ∧ t.pc = (if s.readV x = s.readV y then s.pc else s.pc + 2) ∧
      Frame { pc := true } s t)

/-! ### Loads, arithmetic, logic, random -/

/-- `6xkk`, `8xy0`, `8xy1`, `8xy2`, `8xy3`: Vx is written and nothing else is, VF included (R120, R122 to R125). -/
def Obligations.LoadsAndLogicWriteOneRegister : Prop :=
  ∀ (x y : Reg) (kk : Byte) (s : State),
    (decodeWord (0x6#4 ++ x ++ kk) = .ok (.ldImm x kk) ∧
      ∃ t, exec (.ldImm x kk) s = .next t ∧ t.readV x = kk ∧ Frame { regs := [x] } s t) ∧
    (decodeWord (0x8#4 ++ x ++ y ++ 0x0#4) = .ok (.ldReg x y) ∧
      ∃ t, exec (.ldReg x y) s = .next t ∧ t.readV x = s.readV y ∧ Frame { regs := [x] } s t) ∧
    (decodeWord (0x8#4 ++ x ++ y ++ 0x1#4) = .ok (.orReg x y) ∧
      ∃ t, exec (.orReg x y) s = .next t ∧ t.readV x = s.readV x ||| s.readV y ∧ Frame { regs := [x] } s t) ∧
    (decodeWord (0x8#4 ++ x ++ y ++ 0x2#4) = .ok (.andReg x y) ∧
      ∃ t, exec (.andReg x y) s = .next t ∧ t.readV x = s.readV x &&& s.readV y ∧ Frame { regs := [x] } s t) ∧
    (decodeWord (0x8#4 ++ x ++ y ++ 0x3#4) = .ok (.xorReg x y) ∧
      ∃ t, exec (.xorReg x y) s = .next t ∧ t.readV x = s.readV x ^^^ s.readV y ∧ Frame { regs := [x] } s t)

/-- `7xkk`: the sum mod 256 and no flag (R121, the spec keeping the source's table by its decision D5). -/
def Obligations.AddImmediateLeavesFlag : Prop :=
  ∀ (x : Reg) (kk : Byte) (s : State), decodeWord (0x7#4 ++ x ++ kk) = .ok (.addImm x kk) ∧
    ∃ t, exec (.addImm x kk) s = .next t ∧ (t.readV x).toNat = ((s.readV x).toNat + kk.toNat) % 256 ∧
      Frame { regs := [x] } s t

/-- `8xy4`: VF is the carry whatever x is, and Vx the sum mod 256 when x is not F (R126). -/
def Obligations.AddRegistersSetsCarry : Prop :=
  ∀ (x y : Reg) (s : State), decodeWord (0x8#4 ++ x ++ y ++ 0x4#4) = .ok (.addReg x y) ∧
    ∃ t, exec (.addReg x y) s = .next t ∧
      (x ≠ 0xF#4 → (t.readV x).toNat = ((s.readV x).toNat + (s.readV y).toNat) % 256) ∧
      (t.readV 0xF#4).toNat = (if (s.readV x).toNat + (s.readV y).toNat > 255 then 1 else 0) ∧
      Frame { regs := [x, 0xF#4] } s t

/-- `8xy5` and `8xy7`: Vx is the difference mod 256 whatever x is, and VF the no-borrow when x is not F
(R127, R129; that the result remains when x is F is the spec's decision D6). -/
def Obligations.SubtractionsSetNoBorrow : Prop :=
  ∀ (x y : Reg) (s : State),
    (decodeWord (0x8#4 ++ x ++ y ++ 0x5#4) = .ok (.subReg x y) ∧
      ∃ t, exec (.subReg x y) s = .next t ∧
        ((t.readV x).toNat : Int) = ((s.readV x).toNat - (s.readV y).toNat : Int) % 256 ∧
        (x ≠ 0xF#4 → (t.readV 0xF#4).toNat = if (s.readV x).toNat ≥ (s.readV y).toNat then 1 else 0) ∧
        Frame { regs := [x, 0xF#4] } s t) ∧
    (decodeWord (0x8#4 ++ x ++ y ++ 0x7#4) = .ok (.subnReg x y) ∧
      ∃ t, exec (.subnReg x y) s = .next t ∧
        ((t.readV x).toNat : Int) = ((s.readV y).toNat - (s.readV x).toNat : Int) % 256 ∧
        (x ≠ 0xF#4 → (t.readV 0xF#4).toNat = if (s.readV y).toNat ≥ (s.readV x).toNat then 1 else 0) ∧
        Frame { regs := [x, 0xF#4] } s t)

/-- `8xy6` shifts Vx right and `8xyE` shifts Vy left into Vx; VF is the bit shifted out when x is not F
(R128, R130; that the result remains when x is F is the spec's decision D6). -/
def Obligations.ShiftsSetShiftedOutBit : Prop :=
  ∀ (x y : Reg) (s : State),
    (decodeWord (0x8#4 ++ x ++ y ++ 0x6#4) = .ok (.shr x y) ∧
      ∃ t, exec (.shr x y) s = .next t ∧ t.readV x = s.readV x >>> 1 ∧
        (x ≠ 0xF#4 → (t.readV 0xF#4).toNat = (s.readV x).toNat % 2) ∧ Frame { regs := [x, 0xF#4] } s t) ∧
    (decodeWord (0x8#4 ++ x ++ y ++ 0xE#4) = .ok (.shl x y) ∧
      ∃ t, exec (.shl x y) s = .next t ∧ t.readV x = s.readV y <<< 1 ∧
        (x ≠ 0xF#4 → (t.readV 0xF#4).toNat = (s.readV y).toNat / 128) ∧ Frame { regs := [x, 0xF#4] } s t)

/-- When the destination of a flag-writing ALU instruction is VF: the carry remains for `8xy4`, the result for the
others (the x = F column of R133, the model following the spec's decision D6). -/
def Obligations.FlagRegisterAsDestination : Prop :=
  ∀ (y : Reg) (s : State),
    (∃ t, exec (.addReg 0xF#4 y) s = .next t ∧
      (t.readV 0xF#4).toNat = (if (s.readV 0xF#4).toNat + (s.readV y).toNat > 255 then 1 else 0)) ∧
    (∃ t, exec (.subReg 0xF#4 y) s = .next t ∧ t.readV 0xF#4 = s.readV 0xF#4 - s.readV y) ∧
    (∃ t, exec (.shr 0xF#4 y) s = .next t ∧ t.readV 0xF#4 = s.readV 0xF#4 >>> 1) ∧
    (∃ t, exec (.subnReg 0xF#4 y) s = .next t ∧ t.readV 0xF#4 = s.readV y - s.readV 0xF#4) ∧
    (∃ t, exec (.shl 0xF#4 y) s = .next t ∧ t.readV 0xF#4 = s.readV y <<< 1)

/-- `Cxkk`: one draw below RND_BOUND, masked by kk; the generator advances once whatever kk is (R131, R15). The draw
itself is a free value: the statement holds for every generator. That the generator is a parameter and the bound OPEN are
the spec's decisions D7, D8; that a raw draw is reduced mod the bound is the model's form (notes/assumptions/2.md). -/
def Obligations.RandomByteMasked : Prop :=
  ∀ (x : Reg) (kk : Byte) (s : State), decodeWord (0xC#4 ++ x ++ kk) = .ok (.rnd x kk) ∧
    ∃ t, exec (.rnd x kk) s = .next t ∧
      (∃ r : Byte, r.toNat = (rngNext s.rng).1 % (if s.params.drawsReach255 then 256 else 255) ∧
        r.toNat < (if s.params.drawsReach255 then 256 else 255) ∧ t.readV x = r &&& kk) ∧
      t.rng = (rngNext s.rng).2 ∧ Frame { regs := [x], random := true } s t

/-! ### Address register and memory -/

/-- `Annn`, `Fx1E`, `Fx29`: what I becomes, and nothing else changes, VF included (R140, R141, R142; the
reduction of `Fx1E` mod 2^16 and the unmasked Vx of `Fx29` are the spec's decisions D28 and D13). -/
def Obligations.IndexRegisterWrites : Prop :=
  ∀ (x : Reg) (nnn : Addr12) (s : State),
    (decodeWord (0xA#4 ++ nnn) = .ok (.ldI nnn) ∧
      ∃ t, exec (.ldI nnn) s = .next t ∧ t.i.toNat = nnn.toNat ∧ Frame { index := true } s t) ∧
    (decodeWord (0xF#4 ++ x ++ 0x1E#8) = .ok (.addIVx x) ∧
      ∃ t, exec (.addIVx x) s = .next t ∧ t.i.toNat = (s.i.toNat + (s.readV x).toNat) % 2 ^ 16 ∧
        Frame { index := true } s t) ∧
    (decodeWord (0xF#4 ++ x ++ 0x29#8) = .ok (.ldFVx x) ∧
      ∃ t, exec (.ldFVx x) s = .next t ∧ t.i.toNat = 0x100 + 5 * (s.readV x).toNat ∧ Frame { index := true } s t)

/-- `Fx33`: hundreds, tens and ones at I, I+1, I+2 and no other byte; beyond memory AddressError with nothing written
(R143; AddressError and the latch are the spec's decisions D2, D16, D17). Memory in canonical form is the invariant
`StepKeepsInvariant` states. -/
def Obligations.DecimalDigitsStored : Prop :=
  ∀ (x : Reg) (s : State), decodeWord (0xF#4 ++ x ++ 0x33#8) = .ok (.ldBVx x) ∧
    (s.base + 2 ≤ 0xFFF → ∃ t, exec (.ldBVx x) s = .next t ∧
      Frame { bytes := addressesFrom s.base 3 } s t ∧
      (Memory.wf s.params.font s.mem = true →
        (t.readByte s.base).toNat = (s.readV x).toNat / 100 ∧
        (t.readByte (s.base + 1)).toNat = (s.readV x).toNat / 10 % 10 ∧
        (t.readByte (s.base + 2)).toNat = (s.readV x).toNat % 10)) ∧
    (0xFFF < s.base + 2 → exec (.ldBVx x) s =
      .next { s with halted := true, faultCode := 5, faultPc := s.pc - 2, faultOpcode := 0xF#4 ++ x ++ 0x33#8 })

/-- `Fx55`: V0 to Vx at I up, x included, I unchanged; beyond memory AddressError with nothing stored (R144; the spec's
decisions D14, D2, D16, D17). -/
def Obligations.RegistersStored : Prop :=
  ∀ (x : Reg) (s : State), decodeWord (0xF#4 ++ x ++ 0x55#8) = .ok (.ldMemVx x) ∧
    (s.base + x.toNat ≤ 0xFFF → ∃ t, exec (.ldMemVx x) s = .next t ∧
      Frame { bytes := addressesFrom s.base (x.toNat + 1) } s t ∧
      (Memory.wf s.params.font s.mem = true →
        ∀ r : Reg, r.toNat ≤ x.toNat → t.readByte (s.base + r.toNat) = s.readV r)) ∧
    (0xFFF < s.base + x.toNat → exec (.ldMemVx x) s =
      .next { s with halted := true, faultCode := 5, faultPc := s.pc - 2, faultOpcode := 0xF#4 ++ x ++ 0x55#8 })

/-- `Fx65`: V0 to Vx from I up, x included, registers above x and I unchanged; beyond memory AddressError with no
register written (R145; the spec's decisions D14, D2, D16, D17). -/
def Obligations.RegistersLoaded : Prop :=
  ∀ (x : Reg) (s : State), decodeWord (0xF#4 ++ x ++ 0x65#8) = .ok (.ldVxMem x) ∧
    (s.base + x.toNat ≤ 0xFFF → ∃ t, exec (.ldVxMem x) s = .next t ∧
      (∀ r : Reg, r.toNat ≤ x.toNat → t.readV r = s.readByte (s.base + r.toNat)) ∧
      Frame { regs := regsUpTo x } s t) ∧
    (0xFFF < s.base + x.toNat → exec (.ldVxMem x) s =
      .next { s with halted := true, faultCode := 5, faultPc := s.pc - 2, faultOpcode := 0xF#4 ++ x ++ 0x65#8 })

/-- What `Fx55` stores `Fx65` loads: after both, with the registers overwritten between them by anything, V0 to Vx hold
what they held (R144, R145, R60). -/
def Obligations.LoadAfterStoreRestoresRegisters : Prop :=
  ∀ (x : Reg) (s : State) (junk : Vector Byte 16), Memory.wf s.params.font s.mem = true → s.base + x.toNat ≤ 0xFFF →
    ∃ t u, exec (.ldMemVx x) s = .next t ∧ exec (.ldVxMem x) { t with v := junk } = .next u ∧ u.mem = t.mem ∧
      ∀ r : Reg, r.toNat ≤ x.toNat → u.readV r = s.readV r

/-- `F155` with I just past it changes the next instruction to V0, V1: the very next fetch sees the two bytes stored. One
instance of R65, which the spec derives. -/
def Obligations.StoreSeenByNextFetch : Prop :=
  ∀ s : State, s.halted = false → s.waitKey = false → Memory.wf s.params.font s.mem = true →
    s.pc.toNat + 3 ≤ 0xFFF → s.readByte s.pc.toNat = 0xF1#8 → s.readByte (s.pc.toNat + 1) = 0x55#8 →
    s.i = s.pc + 2 →
    ∃ t, step s = .next t ∧ t.pc = s.pc + 2 ∧ t.fetchWord = some (s.readV 0 ++ s.readV 1)

/-- The canonical form is canonical: two memories in it that read the same everywhere are equal data. The form is the
model's choice (notes/assumptions/3.md). -/
def Obligations.CanonicalMemoriesEqual : Prop :=
  ∀ (font : Vector Byte fontLen) (m m' : Memory), Memory.wf font m = true → Memory.wf font m' = true →
    (∀ a, memRead font m a = memRead font m' a) → m = m'

/-! ### Display -/

/-- `00E0`: every pixel 0 and nothing else changed, VF included (R150). -/
def Obligations.ClearScreen : Prop :=
  decodeWord 0x00E0#16 = .ok .cls ∧ ∀ s : State, ∃ t, exec .cls s = .next t ∧
    (∀ px py, pixel t.disp px py = false) ∧ Frame { display := true } s t

/-- `Dxyn`: every pixel a 1 bit of the sprite lands on is inverted, every other is left; VF is 1 exactly when one of
them was lit; n = 0 reads nothing, cannot fault and clears VF; beyond memory AddressError with display and VF unchanged
(R151, R152; the bit order of R153 is the spec's decision D9, from general knowledge, and the rest of the corners its
decisions D2, D6, D16 to D18). -/
def Obligations.SpriteXorsDisplay : Prop :=
  ∀ (x y : Reg) (n : Nibble) (s : State), decodeWord (0xD#4 ++ x ++ y ++ n) = .ok (.drw x y n) ∧
    (n.toNat = 0 ∨ s.base + n.toNat - 1 ≤ 0xFFF → ∃ t, exec (.drw x y n) s = .next t ∧
      (∀ px py, px < 64 → py < 32 →
        (s.SpriteCovers (s.readV x).toNat (s.readV y).toNat n.toNat px py →
          pixel t.disp px py = !pixel s.disp px py) ∧
        (¬ s.SpriteCovers (s.readV x).toNat (s.readV y).toNat n.toNat px py →
          pixel t.disp px py = pixel s.disp px py)) ∧
      ((∃ px py, s.SpriteCovers (s.readV x).toNat (s.readV y).toNat n.toNat px py ∧ pixel s.disp px py = true) →
        t.readV 0xF#4 = 1) ∧
      (¬ (∃ px py, s.SpriteCovers (s.readV x).toNat (s.readV y).toNat n.toNat px py ∧ pixel s.disp px py = true) →
        t.readV 0xF#4 = 0) ∧
      Frame { regs := [0xF#4], display := true } s t) ∧
    (0 < n.toNat → 0xFFF < s.base + n.toNat - 1 → exec (.drw x y n) s =
      .next { s with halted := true, faultCode := 5, faultPc := s.pc - 2, faultOpcode := 0xD#4 ++ x ++ y ++ n })

/-- Drawing a sprite again at the same coordinates restores the display, and the second draw reports a collision exactly
when the first lit a pixel; on a blank display, whenever the sprite has a 1 bit (R154, R155). The first draw writes VF,
which `x` or `y` may name, so the registers are put back between the draws. -/
def Obligations.SpriteDrawnTwiceRestoresDisplay : Prop :=
  ∀ (x y : Reg) (n : Nibble) (s : State), n.toNat = 0 ∨ s.base + n.toNat - 1 ≤ 0xFFF →
    ∃ t u, exec (.drw x y n) s = .next t ∧ exec (.drw x y n) { t with v := s.v } = .next u ∧ u.disp = s.disp ∧
      (u.readV 0xF#4 = 1 ↔ ∃ px py, s.SpriteCovers (s.readV x).toNat (s.readV y).toNat n.toNat px py ∧
        pixel s.disp px py = false) ∧
      (s.disp = blankDisplay → (∃ r, r < n.toNat ∧ s.readByte (s.base + r) ≠ 0) → u.readV 0xF#4 = 1)

/-! ### Keys and timers -/

/-- `Ex9E` and `ExA1`: skip on the level of key Vx; a register above 15 names no key and is KeyIndexError, which changes
nothing else (R160, R161, R166; KeyIndexError and the latch are the spec's decisions D12, D16, D17). -/
def Obligations.KeySkips : Prop :=
  ∀ (x : Reg) (s : State),
    decodeWord (0xE#4 ++ x ++ 0x9E#8) = .ok (.skp x) ∧ decodeWord (0xE#4 ++ x ++ 0xA1#8) = .ok (.sknp x) ∧
    ((s.readV x).toNat ≤ 15 →
      (∃ t, exec (.skp x) s = .next t ∧
        t.pc = (if s.keys.getLsbD (s.readV x).toNat = true then s.pc + 2 else s.pc) ∧ Frame { pc := true } s t) ∧
      (∃ t, exec (.sknp x) s = .next t ∧
        t.pc = (if s.keys.getLsbD (s.readV x).toNat = true then s.pc else s.pc + 2) ∧ Frame { pc := true } s t)) ∧
    (15 < (s.readV x).toNat →
      exec (.skp x) s =
        .next { s with halted := true, faultCode := 6, faultPc := s.pc - 2, faultOpcode := 0xE#4 ++ x ++ 0x9E#8 } ∧
      exec (.sknp x) s =
        .next { s with halted := true, faultCode := 6, faultPc := s.pc - 2, faultOpcode := 0xE#4 ++ x ++ 0xA1#8 })

/-- `Fx07`, `Fx15`, `Fx18`: between a register and a timer, nothing else changed (R162, R164, R165). -/
def Obligations.TimerTransfers : Prop :=
  ∀ (x : Reg) (s : State),
    (decodeWord (0xF#4 ++ x ++ 0x07#8) = .ok (.ldVxDt x) ∧
      ∃ t, exec (.ldVxDt x) s = .next t ∧ t.readV x = s.dt ∧ Frame { regs := [x] } s t) ∧
    (decodeWord (0xF#4 ++ x ++ 0x15#8) = .ok (.ldDtVx x) ∧
      ∃ t, exec (.ldDtVx x) s = .next t ∧ t.dt = s.readV x ∧ Frame { delay := true } s t) ∧
    (decodeWord (0xF#4 ++ x ++ 0x18#8) = .ok (.ldStVx x) ∧
      ∃ t, exec (.ldStVx x) s = .next t ∧ t.st = s.readV x ∧ (isBuzzerActive t = true ↔ s.readV x ≠ 0) ∧
        Frame { sound := true } s t)

/-- `Fx0A`: the latch is set and nothing else; cycles then do nothing; the first key that goes down gives its number to
Vx and clears the latch, and a key already down, or a release, does not (R163; what a down-edge is, is the spec's decision D15). -/
def Obligations.WaitForKeyStallsUntilDownEdge : Prop :=
  ∀ (x : Reg) (s : State), decodeWord (0xF#4 ++ x ++ 0x0A#8) = .ok (.ldVxK x) ∧
    ∃ t, exec (.ldVxK x) s = .next t ∧ t.waitKey = true ∧ t.keyTarget = x ∧ Frame { wait := true } s t ∧
      step t = .next t ∧
      (s.halted = false → ∀ k : BitVec 4,
        (s.keys.getLsbD k.toNat = false → ∃ u, hostStep (.setKeyState k true) t = .next u ∧
          u.waitKey = false ∧ (u.readV x).toNat = k.toNat ∧ u.pc = s.pc) ∧
        (s.keys.getLsbD k.toNat = true → hostStep (.setKeyState k true) t = .next t) ∧
        ∃ u, hostStep (.setKeyState k false) t = .next u ∧ u.waitKey = true ∧ u.v = s.v)

/-- `set_key_state`: the key's bit and no other, and on a down-edge while the latch is set the key's number to the target
register and the latch cleared; nothing else; nothing at all while halted (R175; the spec's decisions D15, D20, D27). -/
def Obligations.KeyEvents : Prop :=
  ∀ (k : BitVec 4) (isDown : Bool) (s : State),
    (s.halted = true → hostStep (.setKeyState k isDown) s = .next s) ∧
    (s.halted = false → ∃ t, hostStep (.setKeyState k isDown) s = .next t ∧
      (∀ j, j < 16 → t.keys.getLsbD j = if j = k.toNat then isDown else s.keys.getLsbD j) ∧
      (isDown = true ∧ s.keys.getLsbD k.toNat = false ∧ s.waitKey = true →
        t.waitKey = false ∧ (∀ r, (t.readV r).toNat = if r = s.keyTarget then k.toNat else (s.readV r).toNat)) ∧
      (¬ (isDown = true ∧ s.keys.getLsbD k.toNat = false ∧ s.waitKey = true) → t.waitKey = s.waitKey ∧ t.v = s.v) ∧
      t = { s with keys := t.keys, waitKey := t.waitKey, v := t.v })

/-- `tick_60hz`: both timers down by one, floored at 0, stalled or not; nothing else; nothing while halted (R174; the last is the spec's
decision D27). -/
def Obligations.TimerTick : Prop :=
  ∀ s : State,
    (s.halted = true → hostStep .tick s = .next s) ∧
    (s.halted = false → ∃ t, hostStep .tick s = .next t ∧
      t.dt.toNat = s.dt.toNat - 1 ∧ t.st.toNat = s.st.toNat - 1 ∧ t = { s with dt := t.dt, st := t.st })

/-- After k ticks a timer loaded with v holds v - k, never below 0: it reaches 0 after exactly v ticks, and the two
timers are independent (R201). -/
def Obligations.TimersReachZeroAfterTheirValue : Prop :=
  ∀ (k : Nat) (s : State), s.halted = false → ∃ t, runSchedule (List.replicate k .tick) s = .next t ∧
    t.dt.toNat = s.dt.toNat - k ∧ t.st.toNat = s.st.toNat - k ∧ t = { s with dt := t.dt, st := t.st }

/-! ### Host operations and reset -/

/-- `load_program`: the bytes at 0x200 up and nothing else; an image over 3584 bytes is LoadError and copies nothing;
nothing while halted (R172, R186; the spec's decisions D16, D17, D19, D26, D27). -/
def Obligations.ProgramLoaded : Prop :=
  ∀ (bytes : List Byte) (s : State),
    (s.halted = true → hostStep (.loadProgram bytes) s = .next s) ∧
    (s.halted = false → 3584 < bytes.length → hostStep (.loadProgram bytes) s =
      .next { s with halted := true, faultCode := 1, faultPc := 0, faultOpcode := 0 }) ∧
    (s.halted = false → bytes.length ≤ 3584 → ∃ t, hostStep (.loadProgram bytes) s = .next t ∧
      t = { s with mem := t.mem } ∧
      (∀ a, a < 0x200 ∨ 0x200 + bytes.length ≤ a → t.readByte a = s.readByte a) ∧
      (Memory.wf s.params.font s.mem = true → ∀ j (h : j < bytes.length), t.readByte (0x200 + j) = bytes[j]))

/-- Boot: after `init` and `load_program` the first cycle fetches the image's first two bytes (R211, R213). -/
def Obligations.BootFetchesFirstWord : Prop :=
  ∀ (s : State) (b0 b1 : Byte) (rest : List Byte), rest.length ≤ 3582 →
    ∃ t, runSchedule [.init, .loadProgram (b0 :: b1 :: rest)] s = .next t ∧ t.halted = false ∧ t.waitKey = false ∧
      t.pc = 0x200#16 ∧ t.fetchWord = some (b0 ++ b1)

/-- `reset()`: every effect of R171, and what it leaves: memory outside the font, the stack's slots, the random
generator, and VF unless RESET_CLEARS_VF (the spec's decisions D3, D23, D27). -/
def Obligations.WarmReset : Prop :=
  ∀ s : State, ∃ t, hostStep .reset s = .next t ∧
    (∀ r : Reg, r ≠ 0xF#4 → t.readV r = 0) ∧
    t.readV 0xF#4 = (if s.params.resetClearsVF then 0 else s.readV 0xF#4) ∧
    t.sp.val = 0 ∧ t.stack = s.stack ∧ (∀ px py, pixel t.disp px py = false) ∧
    (∀ a, a < 0x100 ∨ 0x150 ≤ a → t.readByte a = s.readByte a) ∧
    (Memory.wf s.params.font s.mem = true → ∀ j (h : j < 80), t.readByte (0x100 + j) = s.params.font[j]'h) ∧
    t.i = 0 ∧ t.dt = 0 ∧ t.st = 0 ∧ t.pc = 0x200 ∧ t.keys = 0 ∧ t.waitKey = false ∧ t.keyTarget = 0 ∧
    t.halted = false ∧ t.faultCode = 0 ∧ t.faultPc = 0 ∧ t.faultOpcode = 0 ∧
    t.rng = s.rng ∧ t.params = s.params

/-- `init()` gives from every state, halted and stalled ones included, the same state but for the OPEN parameters: every
field as the cold column of R37 says (R170; that VF is 0 is the spec's decision D4). -/
def Obligations.ColdReset : Prop :=
  ∀ s : State, ∃ t, hostStep .init s = .next t ∧ t = { State.reset with params := s.params } ∧
    (∀ j (h : j < 80), t.readByte (0x100 + j) = s.params.font[j]'h) ∧
    (∀ a, a < 0x100 ∨ 0x150 ≤ a → t.readByte a = 0) ∧
    (∀ r, t.readV r = 0) ∧ t.i = 0 ∧ t.pc = 0x200 ∧ t.dt = 0 ∧ t.st = 0 ∧ t.sp.val = 0 ∧
    (∀ px py, pixel t.disp px py = false) ∧ t.keys = 0 ∧ t.waitKey = false ∧ t.keyTarget = 0 ∧
    t.rng = rngSeed 1234 ∧ t.halted = false ∧ t.faultCode = 0 ∧ t.faultPc = 0 ∧ t.faultOpcode = 0

/-- `get_pixel` answers at wrapped coordinates and `is_buzzer_active` is `st > 0` (R177; R176, with natural-number
coordinates by the spec's decision D20). -/
def Obligations.OutputsReadTheState : Prop :=
  ∀ (s : State) (px py k l : Nat) (hy : py < 32), px < 64 →
    getPixel s (px + 64 * k) (py + 32 * l) = (s.disp[py]'hy).getLsbD px ∧
    (isBuzzerActive s = true ↔ s.st ≠ 0)

/-! ### Fatal conditions -/

/-- Which instruction raises which fatal condition in its execute phase, and exactly when (R185, R187, R188, R190,
R191, R194; the codes and the last two conditions are the spec's decisions D2, D12, D16). -/
def Obligations.FatalConditionsOfInstructions : Prop :=
  ∀ (i : Instr) (s t : State), s.halted = false → exec i s = .next t →
    (t.halted = true ↔
      (∃ nnn, i = .call nnn) ∧ s.sp.val = 16 ∨ i = .ret ∧ s.sp.val = 0 ∨
      (∃ x y n, i = .drw x y n ∧ 0 < n.toNat ∧ 0xFFF < s.base + n.toNat - 1) ∨
      (∃ x, i = .ldBVx x) ∧ 0xFFF < s.base + 2 ∨
      (∃ x, (i = .ldMemVx x ∨ i = .ldVxMem x) ∧ 0xFFF < s.base + x.toNat) ∨
      (∃ x, (i = .skp x ∨ i = .sknp x) ∧ 15 < (s.readV x).toNat)) ∧
    (t.halted = true → t.faultCode =
      match i with
      | .call _ => 2
      | .ret => 3
      | .skp _ | .sknp _ => 6
      | _ => 5)

/-- Fatal conditions are precise: a cycle that halts changes the fault latch and pc, and nothing else (R193, the
spec's decision D18). -/
def Obligations.FatalConditionsArePrecise : Prop :=
  ∀ s t : State, s.halted = false → step s = .next t → t.halted = true →
    t = { s with pc := t.pc, halted := true, faultCode := t.faultCode, faultPc := t.faultPc, faultOpcode := t.faultOpcode }

/-- What the latch records: the failing instruction's address, its word (0 when none was fetched), and pc left at the
address after it (at the address itself when none was fetched); LoadError records 0 and 0 and leaves pc (R192,
the spec's decisions D16, D17). -/
def Obligations.FaultLatchRecordsFailingInstruction : Prop :=
  (∀ s t : State, s.halted = false → step s = .next t → t.halted = true →
    t.faultPc = s.pc ∧ t.faultCode ∈ [2, 3, 4, 5, 6] ∧
    (0xFFF ≤ s.pc.toNat → t.faultCode = 5 ∧ t.faultOpcode = 0 ∧ t.pc = s.pc) ∧
    (s.pc.toNat < 0xFFF → t.pc = s.pc + 2 ∧
      t.faultOpcode = s.readByte s.pc.toNat ++ s.readByte (s.pc.toNat + 1))) ∧
  (∀ (s t : State) (bytes : List Byte), s.halted = false → hostStep (.loadProgram bytes) s = .next t →
    t.halted = true → t.faultCode = 1 ∧ t.faultPc = 0 ∧ t.faultOpcode = 0 ∧ t.pc = s.pc)

/-- While halted nothing but `init` and `reset` changes anything, and both of these leave the halted state
(R195, R196, the spec's decision D27). -/
def Obligations.HaltedStateIsFrozen : Prop :=
  ∀ s : State, s.halted = true →
    (∀ op : HostOp, op ≠ .init → op ≠ .reset → hostStep op s = .next s) ∧
    (∃ t, hostStep .init s = .next t ∧ t.halted = false) ∧ ∃ t, hostStep .reset s = .next t ∧ t.halted = false

/-! ### Whole-machine rules -/

/-- The frame of every instruction: whatever it does, it changes no register, no byte of memory and no other part of the
state outside its footprint (R21 to R34, R95). -/
def Obligations.InstructionsKeepTheirFootprint : Prop :=
  ∀ (i : Instr) (s t : State), exec i s = .next t → Frame (footprint i s) s t

/-- What a cycle never does: it changes no key, clears no wait-key latch, and moves a timer only by executing `Fx15` or
`Fx18` (R96). -/
def Obligations.CycleNeverTicksNorTouchesKeys : Prop :=
  ∀ s t : State, step s = .next t →
    t.keys = s.keys ∧ (s.waitKey = true → t.waitKey = true) ∧
    (t.dt ≠ s.dt → ∃ x : Reg, s.fetchWord = some (0xF#4 ++ x ++ 0x15#8)) ∧
    (t.st ≠ s.st → ∃ x : Reg, s.fetchWord = some (0xF#4 ++ x ++ 0x18#8))

/-- What is in the dead slots of the call stack can never be seen: two states that agree in everything else still do
after any transition, a cycle or a host operation (R28, the spec's derivation). -/
def Obligations.DeadStackSlotsUnobservable : Prop :=
  ∀ (op : HostOp) (s t s' t' : State), s.SameButDeadSlots t → hostStep op s = .next s' → hostStep op t = .next t' →
    s'.SameButDeadSlots t'

/-- A jump to itself leaves the whole state unchanged (R97); that this is what "finished" means is the spec's decision D30
(notes/assumptions/11.md). -/
def Obligations.JumpToSelfChangesNothing : Prop :=
  ∀ s : State, s.AtSelfJump → step s = .next s

/-- The invariant holds after the cold reset (R37, R39). -/
def Obligations.ResetSatisfiesInvariant : Prop := State.reset.Inv

/-- The invariant is kept by every cycle from every state that meets it: memory canonical, `pc <= 0x10FE`, return
addresses at most 0x1000, the latch clear while running and a legal code while halted (R39). -/
def Obligations.StepKeepsInvariant : Prop :=
  ∀ s t : State, s.Inv → step s = .next t → t.Inv

/-- The invariant is kept by every schedule of cycles and host operations, whatever order the host chooses
(R39, R178). -/
def Obligations.SchedulesKeepInvariant : Prop :=
  ∀ (ops : List HostOp) (s t : State), s.Inv → runSchedule ops s = .next t → t.Inv
end

