-- ==== Sys2Proof/Laws/Decode.lean ====
section
/-! SUPPORT. The fields of a word built from fields, for each format of R72, and what each table row fixes. -/

namespace Sys2Proof

/-! ### NNN: nibble and 12 bits -/

@[simp] theorem fieldOp_nnn (c : BitVec 4) (nnn : Addr12) : fieldOp (c ++ nnn) = c := by
  apply BitVec.eq_of_getLsbD_eq
  intro k hk
  simp [fieldOp]
  grind

@[simp] theorem fieldNNN_nnn (c : BitVec 4) (nnn : Addr12) : fieldNNN (c ++ nnn) = nnn := by
  apply BitVec.eq_of_getLsbD_eq
  intro k hk
  simp [fieldNNN]
  grind

/-! ### XKK: two nibbles and a byte -/

@[simp] theorem fieldOp_xkk (c x : BitVec 4) (kk : Byte) : fieldOp (c ++ x ++ kk) = c := by
  apply BitVec.eq_of_getLsbD_eq
  intro k hk
  simp [fieldOp]
  grind

@[simp] theorem fieldX_xkk (c x : BitVec 4) (kk : Byte) : fieldX (c ++ x ++ kk) = x := by
  apply BitVec.eq_of_getLsbD_eq
  intro k hk
  simp [fieldX]
  grind

@[simp] theorem fieldKK_xkk (c x : BitVec 4) (kk : Byte) : fieldKK (c ++ x ++ kk) = kk := by
  apply BitVec.eq_of_getLsbD_eq
  intro k hk
  simp [fieldKK]
  grind

/-! ### XYN: four nibbles -/

@[simp] theorem fieldOp_xyn (c x y n : BitVec 4) : fieldOp (c ++ x ++ y ++ n) = c := by
  apply BitVec.eq_of_getLsbD_eq
  intro k hk
  simp [fieldOp]
  grind

@[simp] theorem fieldX_xyn (c x y n : BitVec 4) : fieldX (c ++ x ++ y ++ n) = x := by
  apply BitVec.eq_of_getLsbD_eq
  intro k hk
  simp [fieldX]
  grind

@[simp] theorem fieldY_xyn (c x y n : BitVec 4) : fieldY (c ++ x ++ y ++ n) = y := by
  apply BitVec.eq_of_getLsbD_eq
  intro k hk
  simp [fieldY]
  grind

@[simp] theorem fieldN_xyn (c x y n : BitVec 4) : fieldN (c ++ x ++ y ++ n) = n := by
  apply BitVec.eq_of_getLsbD_eq
  intro k hk
  simp [fieldN]
  grind

/-! ### A word from its own fields -/

theorem word_of_nnn (w : Word) : fieldOp w ++ fieldNNN w = w := by
  apply BitVec.eq_of_getLsbD_eq
  intro k hk
  simp [fieldOp, fieldNNN]
  grind

theorem word_of_xkk (w : Word) : fieldOp w ++ fieldX w ++ fieldKK w = w := by
  apply BitVec.eq_of_getLsbD_eq
  intro k hk
  simp [fieldOp, fieldX, fieldKK]
  grind

theorem word_of_xyn (w : Word) : fieldOp w ++ fieldX w ++ fieldY w ++ fieldN w = w := by
  apply BitVec.eq_of_getLsbD_eq
  intro k hk
  simp [fieldOp, fieldX, fieldY, fieldN]
  grind

/-! ### Cases -/

theorem nibble_cases (c : BitVec 4) :
    c = 0x0#4 ∨ c = 0x1#4 ∨ c = 0x2#4 ∨ c = 0x3#4 ∨ c = 0x4#4 ∨ c = 0x5#4 ∨ c = 0x6#4 ∨ c = 0x7#4 ∨ c = 0x8#4 ∨
      c = 0x9#4 ∨ c = 0xA#4 ∨ c = 0xB#4 ∨ c = 0xC#4 ∨ c = 0xD#4 ∨ c = 0xE#4 ∨ c = 0xF#4 := by
  revert c
  decide

/-- The last arm of `decodeWord` is n0 = 0xF. -/
theorem decodeWord_F {w : Word} (h : fieldOp w = 0xF#4) : decodeWord w = decodeF w := by
  unfold decodeWord
  rw [h]
  rfl

/-! ### Bytes of a word (R52) -/

@[simp] theorem wordOfBytes_high_low (w : Word) : wordOfBytes (highByte w) (lowByte w) = w := by
  apply BitVec.eq_of_getLsbD_eq
  intro k hk
  simp [wordOfBytes, highByte, lowByte]
  grind

@[simp] theorem highByte_wordOfBytes (hi lo : Byte) : highByte (wordOfBytes hi lo) = hi := by
  apply BitVec.eq_of_getLsbD_eq
  intro k hk
  simp [wordOfBytes, highByte]
  grind

@[simp] theorem lowByte_wordOfBytes (hi lo : Byte) : lowByte (wordOfBytes hi lo) = lo := by
  apply BitVec.eq_of_getLsbD_eq
  intro k hk
  simp [wordOfBytes, lowByte]
  grind

end Sys2Proof
end

