-- ==== Sys2Proof/Laws/State.lean ====
section
/-! SUPPORT. One lemma per field per update of State, so that no later proof unfolds a record update. -/

namespace Sys2Proof.Machine

variable (s : State)

/-! ### writeV -/

@[simp] theorem State.writeV_params (x : Reg) (b : Byte) : (s.writeV x b).params = s.params := rfl
@[simp] theorem State.writeV_mem (x : Reg) (b : Byte) : (s.writeV x b).mem = s.mem := rfl
@[simp] theorem State.writeV_v (x : Reg) (b : Byte) : (s.writeV x b).v = s.v.set x.toNat b x.isLt := rfl
@[simp] theorem State.writeV_i (x : Reg) (b : Byte) : (s.writeV x b).i = s.i := rfl
@[simp] theorem State.writeV_pc (x : Reg) (b : Byte) : (s.writeV x b).pc = s.pc := rfl
@[simp] theorem State.writeV_dt (x : Reg) (b : Byte) : (s.writeV x b).dt = s.dt := rfl
@[simp] theorem State.writeV_st (x : Reg) (b : Byte) : (s.writeV x b).st = s.st := rfl
@[simp] theorem State.writeV_stack (x : Reg) (b : Byte) : (s.writeV x b).stack = s.stack := rfl
@[simp] theorem State.writeV_sp (x : Reg) (b : Byte) : (s.writeV x b).sp = s.sp := rfl
@[simp] theorem State.writeV_disp (x : Reg) (b : Byte) : (s.writeV x b).disp = s.disp := rfl
@[simp] theorem State.writeV_keys (x : Reg) (b : Byte) : (s.writeV x b).keys = s.keys := rfl
@[simp] theorem State.writeV_waitKey (x : Reg) (b : Byte) : (s.writeV x b).waitKey = s.waitKey := rfl
@[simp] theorem State.writeV_keyTarget (x : Reg) (b : Byte) : (s.writeV x b).keyTarget = s.keyTarget := rfl
@[simp] theorem State.writeV_rng (x : Reg) (b : Byte) : (s.writeV x b).rng = s.rng := rfl
@[simp] theorem State.writeV_halted (x : Reg) (b : Byte) : (s.writeV x b).halted = s.halted := rfl
@[simp] theorem State.writeV_faultCode (x : Reg) (b : Byte) : (s.writeV x b).faultCode = s.faultCode := rfl
@[simp] theorem State.writeV_faultPc (x : Reg) (b : Byte) : (s.writeV x b).faultPc = s.faultPc := rfl
@[simp] theorem State.writeV_faultOpcode (x : Reg) (b : Byte) : (s.writeV x b).faultOpcode = s.faultOpcode := rfl

/-! ### writeRegs -/

@[simp] theorem State.writeRegs_params (bs : List Byte) : (s.writeRegs bs).params = s.params := rfl
@[simp] theorem State.writeRegs_mem (bs : List Byte) : (s.writeRegs bs).mem = s.mem := rfl
@[simp] theorem State.writeRegs_v (bs : List Byte) : (s.writeRegs bs).v = writeRegsFrom s.v 0 bs := rfl
@[simp] theorem State.writeRegs_i (bs : List Byte) : (s.writeRegs bs).i = s.i := rfl
@[simp] theorem State.writeRegs_pc (bs : List Byte) : (s.writeRegs bs).pc = s.pc := rfl
@[simp] theorem State.writeRegs_dt (bs : List Byte) : (s.writeRegs bs).dt = s.dt := rfl
@[simp] theorem State.writeRegs_st (bs : List Byte) : (s.writeRegs bs).st = s.st := rfl
@[simp] theorem State.writeRegs_stack (bs : List Byte) : (s.writeRegs bs).stack = s.stack := rfl
@[simp] theorem State.writeRegs_sp (bs : List Byte) : (s.writeRegs bs).sp = s.sp := rfl
@[simp] theorem State.writeRegs_disp (bs : List Byte) : (s.writeRegs bs).disp = s.disp := rfl
@[simp] theorem State.writeRegs_keys (bs : List Byte) : (s.writeRegs bs).keys = s.keys := rfl
@[simp] theorem State.writeRegs_waitKey (bs : List Byte) : (s.writeRegs bs).waitKey = s.waitKey := rfl
@[simp] theorem State.writeRegs_keyTarget (bs : List Byte) : (s.writeRegs bs).keyTarget = s.keyTarget := rfl
@[simp] theorem State.writeRegs_rng (bs : List Byte) : (s.writeRegs bs).rng = s.rng := rfl
@[simp] theorem State.writeRegs_halted (bs : List Byte) : (s.writeRegs bs).halted = s.halted := rfl
@[simp] theorem State.writeRegs_faultCode (bs : List Byte) : (s.writeRegs bs).faultCode = s.faultCode := rfl
@[simp] theorem State.writeRegs_faultPc (bs : List Byte) : (s.writeRegs bs).faultPc = s.faultPc := rfl
@[simp] theorem State.writeRegs_faultOpcode (bs : List Byte) : (s.writeRegs bs).faultOpcode = s.faultOpcode := rfl

/-! ### advancePc -/

@[simp] theorem State.advancePc_params : s.advancePc.params = s.params := rfl
@[simp] theorem State.advancePc_mem : s.advancePc.mem = s.mem := rfl
@[simp] theorem State.advancePc_v : s.advancePc.v = s.v := rfl
@[simp] theorem State.advancePc_i : s.advancePc.i = s.i := rfl
@[simp] theorem State.advancePc_pc : s.advancePc.pc = s.pc + 2 := rfl
@[simp] theorem State.advancePc_dt : s.advancePc.dt = s.dt := rfl
@[simp] theorem State.advancePc_st : s.advancePc.st = s.st := rfl
@[simp] theorem State.advancePc_stack : s.advancePc.stack = s.stack := rfl
@[simp] theorem State.advancePc_sp : s.advancePc.sp = s.sp := rfl
@[simp] theorem State.advancePc_disp : s.advancePc.disp = s.disp := rfl
@[simp] theorem State.advancePc_keys : s.advancePc.keys = s.keys := rfl
@[simp] theorem State.advancePc_waitKey : s.advancePc.waitKey = s.waitKey := rfl
@[simp] theorem State.advancePc_keyTarget : s.advancePc.keyTarget = s.keyTarget := rfl
@[simp] theorem State.advancePc_rng : s.advancePc.rng = s.rng := rfl
@[simp] theorem State.advancePc_halted : s.advancePc.halted = s.halted := rfl
@[simp] theorem State.advancePc_faultCode : s.advancePc.faultCode = s.faultCode := rfl
@[simp] theorem State.advancePc_faultPc : s.advancePc.faultPc = s.faultPc := rfl
@[simp] theorem State.advancePc_faultOpcode : s.advancePc.faultOpcode = s.faultOpcode := rfl

/-! ### jumpTo -/

@[simp] theorem State.jumpTo_params (w : Word) : (s.jumpTo w).params = s.params := rfl
@[simp] theorem State.jumpTo_mem (w : Word) : (s.jumpTo w).mem = s.mem := rfl
@[simp] theorem State.jumpTo_v (w : Word) : (s.jumpTo w).v = s.v := rfl
@[simp] theorem State.jumpTo_i (w : Word) : (s.jumpTo w).i = s.i := rfl
@[simp] theorem State.jumpTo_pc (w : Word) : (s.jumpTo w).pc = w := rfl
@[simp] theorem State.jumpTo_dt (w : Word) : (s.jumpTo w).dt = s.dt := rfl
@[simp] theorem State.jumpTo_st (w : Word) : (s.jumpTo w).st = s.st := rfl
@[simp] theorem State.jumpTo_stack (w : Word) : (s.jumpTo w).stack = s.stack := rfl
@[simp] theorem State.jumpTo_sp (w : Word) : (s.jumpTo w).sp = s.sp := rfl
@[simp] theorem State.jumpTo_disp (w : Word) : (s.jumpTo w).disp = s.disp := rfl
@[simp] theorem State.jumpTo_keys (w : Word) : (s.jumpTo w).keys = s.keys := rfl
@[simp] theorem State.jumpTo_waitKey (w : Word) : (s.jumpTo w).waitKey = s.waitKey := rfl
@[simp] theorem State.jumpTo_keyTarget (w : Word) : (s.jumpTo w).keyTarget = s.keyTarget := rfl
@[simp] theorem State.jumpTo_rng (w : Word) : (s.jumpTo w).rng = s.rng := rfl
@[simp] theorem State.jumpTo_halted (w : Word) : (s.jumpTo w).halted = s.halted := rfl
@[simp] theorem State.jumpTo_faultCode (w : Word) : (s.jumpTo w).faultCode = s.faultCode := rfl
@[simp] theorem State.jumpTo_faultPc (w : Word) : (s.jumpTo w).faultPc = s.faultPc := rfl
@[simp] theorem State.jumpTo_faultOpcode (w : Word) : (s.jumpTo w).faultOpcode = s.faultOpcode := rfl

/-! ### takeFault -/

@[simp] theorem State.takeFault_params (f : Fault) (p o : Word) : (s.takeFault f p o).params = s.params := rfl
@[simp] theorem State.takeFault_mem (f : Fault) (p o : Word) : (s.takeFault f p o).mem = s.mem := rfl
@[simp] theorem State.takeFault_v (f : Fault) (p o : Word) : (s.takeFault f p o).v = s.v := rfl
@[simp] theorem State.takeFault_i (f : Fault) (p o : Word) : (s.takeFault f p o).i = s.i := rfl
@[simp] theorem State.takeFault_pc (f : Fault) (p o : Word) : (s.takeFault f p o).pc = s.pc := rfl
@[simp] theorem State.takeFault_dt (f : Fault) (p o : Word) : (s.takeFault f p o).dt = s.dt := rfl
@[simp] theorem State.takeFault_st (f : Fault) (p o : Word) : (s.takeFault f p o).st = s.st := rfl
@[simp] theorem State.takeFault_stack (f : Fault) (p o : Word) : (s.takeFault f p o).stack = s.stack := rfl
@[simp] theorem State.takeFault_sp (f : Fault) (p o : Word) : (s.takeFault f p o).sp = s.sp := rfl
@[simp] theorem State.takeFault_disp (f : Fault) (p o : Word) : (s.takeFault f p o).disp = s.disp := rfl
@[simp] theorem State.takeFault_keys (f : Fault) (p o : Word) : (s.takeFault f p o).keys = s.keys := rfl
@[simp] theorem State.takeFault_waitKey (f : Fault) (p o : Word) : (s.takeFault f p o).waitKey = s.waitKey := rfl
@[simp] theorem State.takeFault_keyTarget (f : Fault) (p o : Word) : (s.takeFault f p o).keyTarget = s.keyTarget := rfl
@[simp] theorem State.takeFault_rng (f : Fault) (p o : Word) : (s.takeFault f p o).rng = s.rng := rfl
@[simp] theorem State.takeFault_halted (f : Fault) (p o : Word) : (s.takeFault f p o).halted = true := rfl
@[simp] theorem State.takeFault_faultCode (f : Fault) (p o : Word) : (s.takeFault f p o).faultCode = f.code := rfl
@[simp] theorem State.takeFault_faultPc (f : Fault) (p o : Word) : (s.takeFault f p o).faultPc = p := rfl
@[simp] theorem State.takeFault_faultOpcode (f : Fault) (p o : Word) : (s.takeFault f p o).faultOpcode = o := rfl

/-! ### clearLatch -/

@[simp] theorem State.clearLatch_params : s.clearLatch.params = s.params := rfl
@[simp] theorem State.clearLatch_mem : s.clearLatch.mem = s.mem := rfl
@[simp] theorem State.clearLatch_v : s.clearLatch.v = s.v := rfl
@[simp] theorem State.clearLatch_i : s.clearLatch.i = s.i := rfl
@[simp] theorem State.clearLatch_pc : s.clearLatch.pc = s.pc := rfl
@[simp] theorem State.clearLatch_dt : s.clearLatch.dt = s.dt := rfl
@[simp] theorem State.clearLatch_st : s.clearLatch.st = s.st := rfl
@[simp] theorem State.clearLatch_stack : s.clearLatch.stack = s.stack := rfl
@[simp] theorem State.clearLatch_sp : s.clearLatch.sp = s.sp := rfl
@[simp] theorem State.clearLatch_disp : s.clearLatch.disp = s.disp := rfl
@[simp] theorem State.clearLatch_keys : s.clearLatch.keys = s.keys := rfl
@[simp] theorem State.clearLatch_waitKey : s.clearLatch.waitKey = s.waitKey := rfl
@[simp] theorem State.clearLatch_keyTarget : s.clearLatch.keyTarget = s.keyTarget := rfl
@[simp] theorem State.clearLatch_rng : s.clearLatch.rng = s.rng := rfl
@[simp] theorem State.clearLatch_halted : s.clearLatch.halted = false := rfl
@[simp] theorem State.clearLatch_faultCode : s.clearLatch.faultCode = 0 := rfl
@[simp] theorem State.clearLatch_faultPc : s.clearLatch.faultPc = 0 := rfl
@[simp] theorem State.clearLatch_faultOpcode : s.clearLatch.faultOpcode = 0 := rfl

/-! ### executeFault -/

@[simp] theorem State.executeFault_params (f : Fault) (j : Instr) : (s.executeFault f j).params = s.params := rfl
@[simp] theorem State.executeFault_mem (f : Fault) (j : Instr) : (s.executeFault f j).mem = s.mem := rfl
@[simp] theorem State.executeFault_v (f : Fault) (j : Instr) : (s.executeFault f j).v = s.v := rfl
@[simp] theorem State.executeFault_i (f : Fault) (j : Instr) : (s.executeFault f j).i = s.i := rfl
@[simp] theorem State.executeFault_pc (f : Fault) (j : Instr) : (s.executeFault f j).pc = s.pc := rfl
@[simp] theorem State.executeFault_dt (f : Fault) (j : Instr) : (s.executeFault f j).dt = s.dt := rfl
@[simp] theorem State.executeFault_st (f : Fault) (j : Instr) : (s.executeFault f j).st = s.st := rfl
@[simp] theorem State.executeFault_stack (f : Fault) (j : Instr) : (s.executeFault f j).stack = s.stack := rfl
@[simp] theorem State.executeFault_sp (f : Fault) (j : Instr) : (s.executeFault f j).sp = s.sp := rfl
@[simp] theorem State.executeFault_disp (f : Fault) (j : Instr) : (s.executeFault f j).disp = s.disp := rfl
@[simp] theorem State.executeFault_keys (f : Fault) (j : Instr) : (s.executeFault f j).keys = s.keys := rfl
@[simp] theorem State.executeFault_waitKey (f : Fault) (j : Instr) : (s.executeFault f j).waitKey = s.waitKey := rfl
@[simp] theorem State.executeFault_keyTarget (f : Fault) (j : Instr) : (s.executeFault f j).keyTarget = s.keyTarget := rfl
@[simp] theorem State.executeFault_rng (f : Fault) (j : Instr) : (s.executeFault f j).rng = s.rng := rfl
@[simp] theorem State.executeFault_halted (f : Fault) (j : Instr) : (s.executeFault f j).halted = true := rfl
@[simp] theorem State.executeFault_faultCode (f : Fault) (j : Instr) : (s.executeFault f j).faultCode = f.code := rfl
@[simp] theorem State.executeFault_faultPc (f : Fault) (j : Instr) : (s.executeFault f j).faultPc = s.pc - 2 := rfl
@[simp] theorem State.executeFault_faultOpcode (f : Fault) (j : Instr) : (s.executeFault f j).faultOpcode = encode j := rfl

/-! ### decodeFault -/

@[simp] theorem State.decodeFault_params (w : Word) : (s.decodeFault w).params = s.params := rfl
@[simp] theorem State.decodeFault_mem (w : Word) : (s.decodeFault w).mem = s.mem := rfl
@[simp] theorem State.decodeFault_v (w : Word) : (s.decodeFault w).v = s.v := rfl
@[simp] theorem State.decodeFault_i (w : Word) : (s.decodeFault w).i = s.i := rfl
@[simp] theorem State.decodeFault_pc (w : Word) : (s.decodeFault w).pc = s.pc := rfl
@[simp] theorem State.decodeFault_dt (w : Word) : (s.decodeFault w).dt = s.dt := rfl
@[simp] theorem State.decodeFault_st (w : Word) : (s.decodeFault w).st = s.st := rfl
@[simp] theorem State.decodeFault_stack (w : Word) : (s.decodeFault w).stack = s.stack := rfl
@[simp] theorem State.decodeFault_sp (w : Word) : (s.decodeFault w).sp = s.sp := rfl
@[simp] theorem State.decodeFault_disp (w : Word) : (s.decodeFault w).disp = s.disp := rfl
@[simp] theorem State.decodeFault_keys (w : Word) : (s.decodeFault w).keys = s.keys := rfl
@[simp] theorem State.decodeFault_waitKey (w : Word) : (s.decodeFault w).waitKey = s.waitKey := rfl
@[simp] theorem State.decodeFault_keyTarget (w : Word) : (s.decodeFault w).keyTarget = s.keyTarget := rfl
@[simp] theorem State.decodeFault_rng (w : Word) : (s.decodeFault w).rng = s.rng := rfl
@[simp] theorem State.decodeFault_halted (w : Word) : (s.decodeFault w).halted = true := rfl
@[simp] theorem State.decodeFault_faultCode (w : Word) : (s.decodeFault w).faultCode = 4 := rfl
@[simp] theorem State.decodeFault_faultPc (w : Word) : (s.decodeFault w).faultPc = s.pc - 2 := rfl
@[simp] theorem State.decodeFault_faultOpcode (w : Word) : (s.decodeFault w).faultOpcode = w := rfl

/-! ### fetchFault -/

@[simp] theorem State.fetchFault_params : s.fetchFault.params = s.params := rfl
@[simp] theorem State.fetchFault_mem : s.fetchFault.mem = s.mem := rfl
@[simp] theorem State.fetchFault_v : s.fetchFault.v = s.v := rfl
@[simp] theorem State.fetchFault_i : s.fetchFault.i = s.i := rfl
@[simp] theorem State.fetchFault_pc : s.fetchFault.pc = s.pc := rfl
@[simp] theorem State.fetchFault_dt : s.fetchFault.dt = s.dt := rfl
@[simp] theorem State.fetchFault_st : s.fetchFault.st = s.st := rfl
@[simp] theorem State.fetchFault_stack : s.fetchFault.stack = s.stack := rfl
@[simp] theorem State.fetchFault_sp : s.fetchFault.sp = s.sp := rfl
@[simp] theorem State.fetchFault_disp : s.fetchFault.disp = s.disp := rfl
@[simp] theorem State.fetchFault_keys : s.fetchFault.keys = s.keys := rfl
@[simp] theorem State.fetchFault_waitKey : s.fetchFault.waitKey = s.waitKey := rfl
@[simp] theorem State.fetchFault_keyTarget : s.fetchFault.keyTarget = s.keyTarget := rfl
@[simp] theorem State.fetchFault_rng : s.fetchFault.rng = s.rng := rfl
@[simp] theorem State.fetchFault_halted : s.fetchFault.halted = true := rfl
@[simp] theorem State.fetchFault_faultCode : s.fetchFault.faultCode = 5 := rfl
@[simp] theorem State.fetchFault_faultPc : s.fetchFault.faultPc = s.pc := rfl
@[simp] theorem State.fetchFault_faultOpcode : s.fetchFault.faultOpcode = 0 := rfl

/-! ### skipIf -/

@[simp] theorem State.skipIf_params (c : Bool) : (s.skipIf c).params = s.params := by cases c <;> rfl
@[simp] theorem State.skipIf_mem (c : Bool) : (s.skipIf c).mem = s.mem := by cases c <;> rfl
@[simp] theorem State.skipIf_v (c : Bool) : (s.skipIf c).v = s.v := by cases c <;> rfl
@[simp] theorem State.skipIf_i (c : Bool) : (s.skipIf c).i = s.i := by cases c <;> rfl
@[simp] theorem State.skipIf_pc (c : Bool) : (s.skipIf c).pc = if c then s.pc + 2 else s.pc := by cases c <;> rfl
@[simp] theorem State.skipIf_dt (c : Bool) : (s.skipIf c).dt = s.dt := by cases c <;> rfl
@[simp] theorem State.skipIf_st (c : Bool) : (s.skipIf c).st = s.st := by cases c <;> rfl
@[simp] theorem State.skipIf_stack (c : Bool) : (s.skipIf c).stack = s.stack := by cases c <;> rfl
@[simp] theorem State.skipIf_sp (c : Bool) : (s.skipIf c).sp = s.sp := by cases c <;> rfl
@[simp] theorem State.skipIf_disp (c : Bool) : (s.skipIf c).disp = s.disp := by cases c <;> rfl
@[simp] theorem State.skipIf_keys (c : Bool) : (s.skipIf c).keys = s.keys := by cases c <;> rfl
@[simp] theorem State.skipIf_waitKey (c : Bool) : (s.skipIf c).waitKey = s.waitKey := by cases c <;> rfl
@[simp] theorem State.skipIf_keyTarget (c : Bool) : (s.skipIf c).keyTarget = s.keyTarget := by cases c <;> rfl
@[simp] theorem State.skipIf_rng (c : Bool) : (s.skipIf c).rng = s.rng := by cases c <;> rfl
@[simp] theorem State.skipIf_halted (c : Bool) : (s.skipIf c).halted = s.halted := by cases c <;> rfl
@[simp] theorem State.skipIf_faultCode (c : Bool) : (s.skipIf c).faultCode = s.faultCode := by cases c <;> rfl
@[simp] theorem State.skipIf_faultPc (c : Bool) : (s.skipIf c).faultPc = s.faultPc := by cases c <;> rfl
@[simp] theorem State.skipIf_faultOpcode (c : Bool) : (s.skipIf c).faultOpcode = s.faultOpcode := by cases c <;> rfl

/-! ### The two orders of a flag and a result -/

@[simp] theorem State.writeResultThenFlag_params (x : Reg) (result flag : Byte) : (s.writeResultThenFlag x result flag).params = s.params := rfl
@[simp] theorem State.writeResultThenFlag_mem (x : Reg) (result flag : Byte) : (s.writeResultThenFlag x result flag).mem = s.mem := rfl
@[simp] theorem State.writeResultThenFlag_i (x : Reg) (result flag : Byte) : (s.writeResultThenFlag x result flag).i = s.i := rfl
@[simp] theorem State.writeResultThenFlag_pc (x : Reg) (result flag : Byte) : (s.writeResultThenFlag x result flag).pc = s.pc := rfl
@[simp] theorem State.writeResultThenFlag_dt (x : Reg) (result flag : Byte) : (s.writeResultThenFlag x result flag).dt = s.dt := rfl
@[simp] theorem State.writeResultThenFlag_st (x : Reg) (result flag : Byte) : (s.writeResultThenFlag x result flag).st = s.st := rfl
@[simp] theorem State.writeResultThenFlag_stack (x : Reg) (result flag : Byte) : (s.writeResultThenFlag x result flag).stack = s.stack := rfl
@[simp] theorem State.writeResultThenFlag_sp (x : Reg) (result flag : Byte) : (s.writeResultThenFlag x result flag).sp = s.sp := rfl
@[simp] theorem State.writeResultThenFlag_disp (x : Reg) (result flag : Byte) : (s.writeResultThenFlag x result flag).disp = s.disp := rfl
@[simp] theorem State.writeResultThenFlag_keys (x : Reg) (result flag : Byte) : (s.writeResultThenFlag x result flag).keys = s.keys := rfl
@[simp] theorem State.writeResultThenFlag_waitKey (x : Reg) (result flag : Byte) : (s.writeResultThenFlag x result flag).waitKey = s.waitKey := rfl
@[simp] theorem State.writeResultThenFlag_keyTarget (x : Reg) (result flag : Byte) : (s.writeResultThenFlag x result flag).keyTarget = s.keyTarget := rfl
@[simp] theorem State.writeResultThenFlag_rng (x : Reg) (result flag : Byte) : (s.writeResultThenFlag x result flag).rng = s.rng := rfl
@[simp] theorem State.writeResultThenFlag_halted (x : Reg) (result flag : Byte) : (s.writeResultThenFlag x result flag).halted = s.halted := rfl
@[simp] theorem State.writeResultThenFlag_faultCode (x : Reg) (result flag : Byte) : (s.writeResultThenFlag x result flag).faultCode = s.faultCode := rfl
@[simp] theorem State.writeResultThenFlag_faultPc (x : Reg) (result flag : Byte) : (s.writeResultThenFlag x result flag).faultPc = s.faultPc := rfl
@[simp] theorem State.writeResultThenFlag_faultOpcode (x : Reg) (result flag : Byte) : (s.writeResultThenFlag x result flag).faultOpcode = s.faultOpcode := rfl

@[simp] theorem State.writeFlagThenResult_params (x : Reg) (flag result : Byte) : (s.writeFlagThenResult x flag result).params = s.params := rfl
@[simp] theorem State.writeFlagThenResult_mem (x : Reg) (flag result : Byte) : (s.writeFlagThenResult x flag result).mem = s.mem := rfl
@[simp] theorem State.writeFlagThenResult_i (x : Reg) (flag result : Byte) : (s.writeFlagThenResult x flag result).i = s.i := rfl
@[simp] theorem State.writeFlagThenResult_pc (x : Reg) (flag result : Byte) : (s.writeFlagThenResult x flag result).pc = s.pc := rfl
@[simp] theorem State.writeFlagThenResult_dt (x : Reg) (flag result : Byte) : (s.writeFlagThenResult x flag result).dt = s.dt := rfl
@[simp] theorem State.writeFlagThenResult_st (x : Reg) (flag result : Byte) : (s.writeFlagThenResult x flag result).st = s.st := rfl
@[simp] theorem State.writeFlagThenResult_stack (x : Reg) (flag result : Byte) : (s.writeFlagThenResult x flag result).stack = s.stack := rfl
@[simp] theorem State.writeFlagThenResult_sp (x : Reg) (flag result : Byte) : (s.writeFlagThenResult x flag result).sp = s.sp := rfl
@[simp] theorem State.writeFlagThenResult_disp (x : Reg) (flag result : Byte) : (s.writeFlagThenResult x flag result).disp = s.disp := rfl
@[simp] theorem State.writeFlagThenResult_keys (x : Reg) (flag result : Byte) : (s.writeFlagThenResult x flag result).keys = s.keys := rfl
@[simp] theorem State.writeFlagThenResult_waitKey (x : Reg) (flag result : Byte) : (s.writeFlagThenResult x flag result).waitKey = s.waitKey := rfl
@[simp] theorem State.writeFlagThenResult_keyTarget (x : Reg) (flag result : Byte) : (s.writeFlagThenResult x flag result).keyTarget = s.keyTarget := rfl
@[simp] theorem State.writeFlagThenResult_rng (x : Reg) (flag result : Byte) : (s.writeFlagThenResult x flag result).rng = s.rng := rfl
@[simp] theorem State.writeFlagThenResult_halted (x : Reg) (flag result : Byte) : (s.writeFlagThenResult x flag result).halted = s.halted := rfl
@[simp] theorem State.writeFlagThenResult_faultCode (x : Reg) (flag result : Byte) : (s.writeFlagThenResult x flag result).faultCode = s.faultCode := rfl
@[simp] theorem State.writeFlagThenResult_faultPc (x : Reg) (flag result : Byte) : (s.writeFlagThenResult x flag result).faultPc = s.faultPc := rfl
@[simp] theorem State.writeFlagThenResult_faultOpcode (x : Reg) (flag result : Byte) : (s.writeFlagThenResult x flag result).faultOpcode = s.faultOpcode := rfl

/-! ### Reads through updates that leave what is read alone -/

@[simp] theorem State.readByte_writeV (x : Reg) (b : Byte) (k : Nat) : (s.writeV x b).readByte k = s.readByte k := by
  simp [State.readByte]
@[simp] theorem State.readByte_writeRegs (bs : List Byte) (k : Nat) : (s.writeRegs bs).readByte k = s.readByte k := by
  simp [State.readByte]
@[simp] theorem State.readV_advancePc (r : Reg) : s.advancePc.readV r = s.readV r := by
  simp [State.readV]
@[simp] theorem State.readByte_advancePc (k : Nat) : s.advancePc.readByte k = s.readByte k := by
  simp [State.readByte]
@[simp] theorem State.readV_jumpTo (w : Word) (r : Reg) : (s.jumpTo w).readV r = s.readV r := by
  simp [State.readV]
@[simp] theorem State.readByte_jumpTo (w : Word) (k : Nat) : (s.jumpTo w).readByte k = s.readByte k := by
  simp [State.readByte]
@[simp] theorem State.readV_takeFault (f : Fault) (p o : Word) (r : Reg) : (s.takeFault f p o).readV r = s.readV r := by
  simp [State.readV]
@[simp] theorem State.readByte_takeFault (f : Fault) (p o : Word) (k : Nat) : (s.takeFault f p o).readByte k = s.readByte k := by
  simp [State.readByte]
@[simp] theorem State.readV_clearLatch (r : Reg) : s.clearLatch.readV r = s.readV r := by
  simp [State.readV]
@[simp] theorem State.readByte_clearLatch (k : Nat) : s.clearLatch.readByte k = s.readByte k := by
  simp [State.readByte]
@[simp] theorem State.readV_executeFault (f : Fault) (j : Instr) (r : Reg) : (s.executeFault f j).readV r = s.readV r := by
  simp [State.readV]
@[simp] theorem State.readByte_executeFault (f : Fault) (j : Instr) (k : Nat) : (s.executeFault f j).readByte k = s.readByte k := by
  simp [State.readByte]
@[simp] theorem State.readV_decodeFault (w : Word) (r : Reg) : (s.decodeFault w).readV r = s.readV r := by
  simp [State.readV]
@[simp] theorem State.readByte_decodeFault (w : Word) (k : Nat) : (s.decodeFault w).readByte k = s.readByte k := by
  simp [State.readByte]
@[simp] theorem State.readV_fetchFault (r : Reg) : s.fetchFault.readV r = s.readV r := by
  simp [State.readV]
@[simp] theorem State.readByte_fetchFault (k : Nat) : s.fetchFault.readByte k = s.readByte k := by
  simp [State.readByte]
@[simp] theorem State.readV_skipIf (c : Bool) (r : Reg) : (s.skipIf c).readV r = s.readV r := by
  simp [State.readV]
@[simp] theorem State.readByte_skipIf (c : Bool) (k : Nat) : (s.skipIf c).readByte k = s.readByte k := by
  simp [State.readByte]
@[simp] theorem State.readByte_writeResultThenFlag (x : Reg) (result flag : Byte) (k : Nat) :
    (s.writeResultThenFlag x result flag).readByte k = s.readByte k := by
  simp [State.readByte]
@[simp] theorem State.readByte_writeFlagThenResult (x : Reg) (flag result : Byte) (k : Nat) :
    (s.writeFlagThenResult x flag result).readByte k = s.readByte k := by
  simp [State.readByte]

end Sys2Proof.Machine
end

