-- ==== Sys2Proof/Laws/Memory.lean ====
section
/-! SUPPORT. Memory: read after write, the canonical form, and multi-byte reads and writes. -/

namespace Sys2Proof.Machine

open Sys2Proof.Config

variable {font : Vector Byte fontLen}

/-! ### The canonical form -/

theorem Memory.wfFrom_cons {lo k : Nat} {b : Byte} {m : Memory} :
    Memory.wfFrom font lo ((k, b) :: m) = true ↔
      lo ≤ k ∧ k < memSize ∧ b ≠ unlistedByte font k ∧ Memory.wfFrom font (k + 1) m = true := by
  simp [Memory.wfFrom, and_assoc]

theorem Memory.wfFrom_weaken {lo lo' : Nat} {m : Memory} (h : Memory.wfFrom font lo m = true) (hlo : lo' ≤ lo) :
    Memory.wfFrom font lo' m = true := by
  cases m with
  | nil => rfl
  | cons e m =>
    obtain ⟨k, b⟩ := e
    rw [Memory.wfFrom_cons] at h ⊢
    exact ⟨hlo.trans h.1, h.2⟩

theorem Memory.wf_nil : Memory.wf font [] = true := rfl

/-- Below every listed address, memory reads as unlisted. -/
theorem memRead_below {lo a : Nat} {m : Memory} (h : Memory.wfFrom font lo m = true) (ha : a < lo) :
    memRead font m a = unlistedByte font a := by
  induction m generalizing lo with
  | nil => rfl
  | cons e m ih =>
    obtain ⟨k, b⟩ := e
    rw [Memory.wfFrom_cons] at h
    rw [memRead, if_neg (by omega)]
    exact ih h.2.2.2 (by omega)

/-! ### One byte -/

/-- A write leaves every other address alone. -/
theorem memRead_memWrite_of_ne {m : Memory} {a a' : Nat} {b : Byte} (h : a' ≠ a) :
    memRead font (memWrite font m a b) a' = memRead font m a' := by
  induction m with
  | nil =>
    rw [memWrite]
    split
    · rfl
    · simp only [memRead, if_neg (Ne.symm h)]
  | cons e m ih =>
    obtain ⟨k, c⟩ := e
    rw [memWrite]
    split
    · split
      · rfl
      · rw [memRead, if_neg (Ne.symm h)]
    · split
      · rename_i hk
        subst hk
        split <;> simp [memRead, Ne.symm h]
      · simp only [memRead, ih]

/-- A byte reads back as last written (R60). -/
theorem memRead_memWrite_self {m : Memory} {lo a : Nat} {b : Byte} (h : Memory.wfFrom font lo m = true) :
    memRead font (memWrite font m a b) a = b := by
  induction m generalizing lo with
  | nil =>
    rw [memWrite]
    split
    · rename_i hb
      exact hb.symm
    · simp [memRead]
  | cons e m ih =>
    obtain ⟨k, c⟩ := e
    have h' := Memory.wfFrom_cons.mp h
    rw [memWrite]
    split
    · rename_i hk
      split
      · rename_i hb
        rw [memRead, if_neg (by omega), memRead_below h'.2.2.2 (by omega), hb]
      · simp [memRead]
    · split
      · rename_i hk
        subst hk
        split
        · rename_i hb
          rw [memRead_below h'.2.2.2 (by omega), hb]
        · simp [memRead]
      · rename_i hk
        rw [memRead, if_neg (Ne.symm hk)]
        exact ih h'.2.2.2

/-- A write keeps the canonical form. -/
theorem memWrite_wfFrom {m : Memory} {lo a : Nat} {b : Byte} (h : Memory.wfFrom font lo m = true) (hlo : lo ≤ a)
    (ha : a < memSize) : Memory.wfFrom font lo (memWrite font m a b) = true := by
  induction m generalizing lo with
  | nil =>
    rw [memWrite]
    split
    · rfl
    · rename_i hb
      exact Memory.wfFrom_cons.mpr ⟨hlo, ha, hb, rfl⟩
  | cons e m ih =>
    obtain ⟨k, c⟩ := e
    have h' := Memory.wfFrom_cons.mp h
    rw [memWrite]
    split
    · split
      · exact h
      · rename_i hk hb
        exact Memory.wfFrom_cons.mpr ⟨hlo, ha, hb, Memory.wfFrom_cons.mpr ⟨by omega, h'.2⟩⟩
    · split
      · rename_i hk
        subst hk
        split
        · exact Memory.wfFrom_weaken h'.2.2.2 (by omega)
        · rename_i hb
          exact Memory.wfFrom_cons.mpr ⟨hlo, ha, hb, h'.2.2.2⟩
      · rename_i hlt hne
        exact Memory.wfFrom_cons.mpr ⟨h'.1, h'.2.1, h'.2.2.1, ih h'.2.2.2 (by omega)⟩

/-! ### Consecutive bytes -/

@[simp] theorem memReadBytes_length (m : Memory) (a n : Nat) : (memReadBytes font m a n).length = n := by
  induction n generalizing a with
  | zero => rfl
  | succ n ih => simp [memReadBytes, ih]

@[simp] theorem memReadBytes_getElem (m : Memory) (a n k : Nat) (h : k < (memReadBytes font m a n).length) :
    (memReadBytes font m a n)[k] = memRead font m (a + k) := by
  induction n generalizing a k with
  | zero => simp [memReadBytes] at h
  | succ n ih =>
    cases k with
    | zero => simp [memReadBytes]
    | succ k =>
      simp only [memReadBytes, List.getElem_cons_succ, ih]
      congr 1
      omega

/-- Writing bytes leaves every address outside them alone. -/
theorem memRead_memWriteBytes_outside {m : Memory} {a a' : Nat} {bs : List Byte}
    (h : a' < a ∨ a + bs.length ≤ a') : memRead font (memWriteBytes font m a bs) a' = memRead font m a' := by
  induction bs generalizing m a with
  | nil => rfl
  | cons b bs ih =>
    simp only [List.length_cons] at h
    rw [memWriteBytes, ih (by omega), memRead_memWrite_of_ne (by omega)]

/-- Writing bytes inside memory keeps the canonical form. -/
theorem memWriteBytes_wf {m : Memory} {a : Nat} {bs : List Byte} (h : Memory.wf font m = true)
    (ha : bs = [] ∨ a + bs.length ≤ memSize) : Memory.wf font (memWriteBytes font m a bs) = true := by
  induction bs generalizing m a with
  | nil => exact h
  | cons b bs ih =>
    simp only [List.length_cons, reduceCtorEq, false_or] at ha
    exact ih (memWrite_wfFrom h (Nat.zero_le _) (by omega)) (Or.inr (by omega))

/-- Bytes written read back (R60). -/
theorem memRead_memWriteBytes_inside {m : Memory} {a k : Nat} {bs : List Byte} (h : Memory.wf font m = true)
    (ha : a + bs.length ≤ memSize) (hk : k < bs.length) :
    memRead font (memWriteBytes font m a bs) (a + k) = bs[k] := by
  induction bs generalizing m a k with
  | nil => simp at hk
  | cons b bs ih =>
    simp only [List.length_cons] at ha hk
    rw [memWriteBytes]
    cases k with
    | zero =>
      rw [memRead_memWriteBytes_outside (by omega)]
      exact memRead_memWrite_self h
    | succ k =>
      have := ih (m := memWrite font m a b) (a := a + 1) (k := k)
        (memWrite_wfFrom h (Nat.zero_le _) (by omega)) (by omega) (by omega)
      rw [show a + (k + 1) = a + 1 + k by omega, this]
      rfl

/-! ### Checked accesses of the state (R53) -/

theorem accessOk_iff (a n : Nat) : accessOk a n = true ↔ n = 0 ∨ a + n ≤ memSize := by
  simp [accessOk]

theorem State.loadBytes_of_ok {s : State} {a n : Nat} (h : n = 0 ∨ a + n ≤ memSize) :
    s.loadBytes a n = some (memReadBytes s.params.font s.mem a n) := by
  rw [State.loadBytes, if_pos ((accessOk_iff a n).mpr h)]

theorem State.loadBytes_of_bad {s : State} {a n : Nat} (hn : 0 < n) (h : memSize < a + n) :
    s.loadBytes a n = none := by
  rw [State.loadBytes, if_neg]
  rw [accessOk_iff]
  omega

theorem State.storeBytes_of_ok {s : State} {a : Nat} {bs : List Byte} (h : bs = [] ∨ a + bs.length ≤ memSize) :
    s.storeBytes a bs = some { s with mem := memWriteBytes s.params.font s.mem a bs } := by
  rw [State.storeBytes, if_pos ((accessOk_iff a bs.length).mpr (h.imp_left (by simp [·])))]

theorem State.storeBytes_of_bad {s : State} {a : Nat} {bs : List Byte} (hn : 0 < bs.length)
    (h : memSize < a + bs.length) : s.storeBytes a bs = none := by
  rw [State.storeBytes, if_neg]
  rw [accessOk_iff]
  omega

/-- Everything a checked load can do: answer the bytes of memory in ascending order, or nothing when it is not
admitted. -/
theorem State.loadBytes_cases (s : State) (a n : Nat) :
    (s.loadBytes a n = some (memReadBytes s.params.font s.mem a n) ∧ (n = 0 ∨ a + n ≤ memSize)) ∨
      (s.loadBytes a n = none ∧ 0 < n ∧ memSize < a + n) := by
  by_cases h : n = 0 ∨ a + n ≤ memSize
  · exact Or.inl ⟨State.loadBytes_of_ok h, h⟩
  · exact Or.inr ⟨State.loadBytes_of_bad (by omega) (by omega), by omega, by omega⟩

/-- Everything a checked store can do: write the bytes in ascending order and nothing else, or nothing at all when it is
not admitted (R193). -/
theorem State.storeBytes_cases (s : State) (a : Nat) (bs : List Byte) :
    (s.storeBytes a bs = some { s with mem := memWriteBytes s.params.font s.mem a bs } ∧
        (bs = [] ∨ a + bs.length ≤ memSize)) ∨
      (s.storeBytes a bs = none ∧ 0 < bs.length ∧ memSize < a + bs.length) := by
  by_cases h : bs = [] ∨ a + bs.length ≤ memSize
  · exact Or.inl ⟨State.storeBytes_of_ok h, h⟩
  · rw [not_or] at h
    have : 0 < bs.length := List.length_pos_iff.mpr h.1
    exact Or.inr ⟨State.storeBytes_of_bad this (by omega), this, by omega⟩

/-! ### Fetch (R93) -/

theorem State.fetchWord_of_lt {s : State} (h : s.pc.toNat < 0xFFF) :
    s.fetchWord = some (wordOfBytes (s.readByte s.pc.toNat) (s.readByte (s.pc.toNat + 1))) := by
  have ha : s.pc.toNat + 2 ≤ memSize := by simp only [memSize]; omega
  simp only [State.fetchWord, State.loadBytes_of_ok (Or.inr ha), memReadBytes, State.readByte]

theorem State.fetchWord_of_ge {s : State} (h : 0xFFF ≤ s.pc.toNat) : s.fetchWord = none := by
  have ha : memSize < s.pc.toNat + 2 := by simp only [memSize]; omega
  simp only [State.fetchWord, State.loadBytes_of_bad (by decide) ha]

end Sys2Proof.Machine
end

