-- ==== Sys2Proof/Laws/Registers.lean ====
section
/-! SUPPORT. The register file, the call stack and the flag bytes: one spec lemma per shared operation. -/

namespace Sys2Proof.Machine

open Sys2Proof.Config

/-! ### Registers (R21) -/

theorem State.readV_writeV (s : State) (x r : Reg) (b : Byte) :
    (s.writeV x b).readV r = if r = x then b else s.readV r := by
  simp only [State.readV, State.writeV, Vector.getElem_set, ← BitVec.toNat_inj, eq_comm]

@[simp] theorem State.readV_writeV_self (s : State) (x : Reg) (b : Byte) : (s.writeV x b).readV x = b := by
  simp [State.readV_writeV]

theorem State.readV_writeV_of_ne (s : State) {x r : Reg} (b : Byte) (h : r ≠ x) :
    (s.writeV x b).readV r = s.readV r := by
  simp [State.readV_writeV, h]

/-- The result-then-flag order: the flag is what VF holds, whatever `x` is (R126). -/
theorem State.readV_writeResultThenFlag (s : State) (x r : Reg) (result flag : Byte) :
    (s.writeResultThenFlag x result flag).readV r =
      if r = regF then flag else if r = x then result else s.readV r := by
  simp only [State.writeResultThenFlag, State.readV_writeV]

/-- The flag-then-result order: the result is what `Vx` holds, `x = F` included (R133). -/
theorem State.readV_writeFlagThenResult (s : State) (x r : Reg) (flag result : Byte) :
    (s.writeFlagThenResult x flag result).readV r =
      if r = x then result else if r = regF then flag else s.readV r := by
  simp only [State.writeFlagThenResult, State.readV_writeV]

theorem writeRegsFrom_getElem (v : Vector Byte 16) (k : Nat) (bs : List Byte) (r : Nat) (hr : r < 16) :
    (writeRegsFrom v k bs)[r] = if h : k ≤ r ∧ r < k + bs.length then bs[r - k]'(by omega) else v[r] := by
  induction bs generalizing v k with
  | nil => simp [writeRegsFrom]
  | cons b bs ih =>
    rw [writeRegsFrom, ih]
    by_cases h : k + 1 ≤ r ∧ r < k + 1 + bs.length
    · rw [dif_pos h, dif_pos (by simp only [List.length_cons]; omega)]
      simp only [show r - k = r - (k + 1) + 1 by omega, List.getElem_cons_succ]
    · rw [dif_neg h]
      by_cases hk : r = k
      · subst hk
        simp
      · rw [dif_neg (by simp only [List.length_cons]; omega), Vector.getElem_setIfInBounds, if_neg (Ne.symm hk)]

/-- Loading bytes into `V[0]`, `V[1]`, …: byte `r` lands in register `r`, the others are unchanged (R145). -/
theorem State.readV_writeRegs (s : State) (bs : List Byte) (r : Reg) :
    (s.writeRegs bs).readV r = if h : r.toNat < bs.length then bs[r.toNat] else s.readV r := by
  simp only [State.readV, State.writeRegs, writeRegsFrom_getElem, Nat.zero_le, true_and, Nat.zero_add, Nat.sub_zero]

@[simp] theorem State.regsThrough_length (s : State) (x : Reg) : (s.regsThrough x).length = x.toNat + 1 := by
  have := x.isLt
  simp only [State.regsThrough, List.length_take, Vector.length_toList]
  omega

/-- The bytes `Fx55` stores: byte `k` is register `k` (R144). -/
theorem State.regsThrough_getElem (s : State) (x r : Reg) (h : r.toNat < (s.regsThrough x).length) :
    (s.regsThrough x)[r.toNat] = s.readV r := by
  simp [State.regsThrough, State.readV]

/-! ### The call stack (R27) -/

theorem State.push_of_lt {s : State} (w : Word) (h : s.sp.val < 16) :
    s.push w = some { s with stack := s.stack.set s.sp.val w h, sp := ⟨s.sp.val + 1, by omega⟩ } := by
  rw [State.push, dif_pos h]

theorem State.push_of_full {s : State} (w : Word) (h : s.sp.val = 16) : s.push w = none := by
  rw [State.push, dif_neg (by omega)]

theorem State.pop_of_pos {s : State} (h : 0 < s.sp.val) :
    s.pop = some (s.stack[s.sp.val - 1]'(by have := s.sp.isLt; show s.sp.val - 1 < 16; omega),
      { s with sp := ⟨s.sp.val - 1, by omega⟩ }) := by
  rw [State.pop, dif_pos h]

theorem State.pop_of_empty {s : State} (h : s.sp.val = 0) : s.pop = none := by
  rw [State.pop, dif_neg (by omega)]

/-! ### Flags and the random byte -/

theorem flagByte_le_one (b : Bool) : (flagByte b).toNat ≤ 1 := by cases b <;> decide

theorem flagByte_eq_one_iff (b : Bool) : flagByte b = 1 ↔ b = true := by cases b <;> decide

theorem rndBound_pos (p : Params) : 0 < rndBound p := by rw [rndBound]; split <;> decide

theorem rndBound_le (p : Params) : rndBound p ≤ 256 := by rw [rndBound]; split <;> decide

/-- Every draw lies below `RND_BOUND` (R15). -/
theorem State.randomByte_lt (s : State) : s.randomByte.1.toNat < rndBound s.params := by
  have h := Nat.mod_lt (rngNext s.rng).1 (rndBound_pos s.params)
  have := rndBound_le s.params
  simp only [State.randomByte, BitVec.toNat_ofNat]
  rw [Nat.mod_eq_of_lt (by omega)]
  exact h

end Sys2Proof.Machine
end

