-- ==== Sys2Proof/Laws/Display.lean ====
section
/-! SUPPORT. The display: the drawing loop of R151 equals its closed form (R155): each pixel the sprite covers is
inverted once, every other pixel is left, and a collision is a covered pixel that was lit. -/

namespace Sys2Proof.Machine

open Sys2Proof.Config

theorem pixel_mod (d : Display) (px py : Nat) : pixel d (px % dispW) (py % dispH) = pixel d px py := by
  simp [pixel]

theorem pixel_togglePixel (d : Display) (px py qx qy : Nat) :
    pixel (togglePixel d px py) qx qy =
      if px % dispW = qx % dispW ∧ py % dispH = qy % dispH then !pixel d qx qy else pixel d qx qy := by
  have hq : qx % 64 < 64 := Nat.mod_lt _ (by decide)
  simp only [pixel, togglePixel, Vector.getElem_set]
  by_cases hy : py % dispH = qy % dispH
  · simp only [hy, if_true, and_true, BitVec.getLsbD_xor, BitVec.getLsbD_shiftLeft, BitVec.getLsbD_one]
    by_cases hx : px % dispW = qx % dispW
    · simp only [hx, if_true, dispW] at *
      simp [hq]
    · have : (decide (qx % dispW < 64) && !decide (qx % dispW < px % dispW) &&
          (decide (0 < 64) && decide (qx % dispW - px % dispW = 0))) = false := by
        simp only [Bool.and_eq_false_iff, decide_eq_false_iff_not, Bool.not_eq_false', decide_eq_true_eq]
        omega
      rw [if_neg hx, this, Bool.xor_false]
  · simp [hy]

theorem pixel_drawBit (px py : Nat) (bit : Bool) (acc : Display × Bool) (qx qy : Nat) :
    pixel (drawBit px py bit acc).1 qx qy =
      if bit = true ∧ px % dispW = qx % dispW ∧ py % dispH = qy % dispH then !pixel acc.1 qx qy
      else pixel acc.1 qx qy := by
  cases bit
  · simp [drawBit]
  · simp only [drawBit, if_true, true_and, pixel_togglePixel]

/-- The pixel (qx, qy) is one of the sprite row's columns `k` to `k + cols - 1` with a 1 bit. -/
def rowCovers (x0 py : Nat) (b : Byte) (k cols qx qy : Nat) : Prop :=
  ∃ j, k ≤ j ∧ j < k + cols ∧ b.getLsbD (7 - j) = true ∧ (x0 + j) % dispW = qx % dispW ∧ py % dispH = qy % dispH

theorem pixel_drawColumns (x0 py : Nat) (b : Byte) (cols k : Nat) (hc : cols ≤ 64) (acc : Display × Bool)
    (qx qy : Nat) :
    (rowCovers x0 py b k cols qx qy → pixel (drawColumns x0 py b cols k acc).1 qx qy = !pixel acc.1 qx qy) ∧
      (¬ rowCovers x0 py b k cols qx qy → pixel (drawColumns x0 py b cols k acc).1 qx qy = pixel acc.1 qx qy) := by
  induction cols generalizing k acc with
  | zero =>
    refine ⟨fun ⟨j, h1, h2, _⟩ => absurd h2 (by omega), fun _ => rfl⟩
  | succ cols ih =>
    obtain ⟨ih1, ih2⟩ := ih (k + 1) (by omega) (drawBit (x0 + k) py (b.getLsbD (7 - k)) acc)
    rw [drawColumns]
    by_cases hk : b.getLsbD (7 - k) = true ∧ (x0 + k) % dispW = qx % dispW ∧ py % dispH = qy % dispH
    · have hrest : ¬ rowCovers x0 py b (k + 1) cols qx qy := by
        rintro ⟨j, h1, h2, _, h4, _⟩
        have := hk.2.1
        simp only [dispW] at this h4
        omega
      have hall : rowCovers x0 py b k (cols + 1) qx qy := ⟨k, le_rfl, by omega, hk⟩
      refine ⟨fun _ => ?_, fun h => absurd hall h⟩
      rw [ih2 hrest, pixel_drawBit, if_pos hk]
    · have hiff : rowCovers x0 py b k (cols + 1) qx qy ↔ rowCovers x0 py b (k + 1) cols qx qy := by
        constructor
        · rintro ⟨j, h1, h2, h3⟩
          rcases Nat.eq_or_lt_of_le h1 with rfl | h1
          · exact absurd h3 hk
          · exact ⟨j, h1, by omega, h3⟩
        · rintro ⟨j, h1, h2, h3⟩
          exact ⟨j, by omega, by omega, h3⟩
      rw [hiff]
      rw [pixel_drawBit, if_neg hk] at ih1 ih2
      exact ⟨ih1, ih2⟩

/-- The collision a sprite row adds: a covered pixel that was lit before the row. -/
theorem drawColumns_collision (x0 py : Nat) (b : Byte) (cols k : Nat) (hc : cols ≤ 64) (acc : Display × Bool) :
    (drawColumns x0 py b cols k acc).2 = true ↔
      acc.2 = true ∨ ∃ qx qy, rowCovers x0 py b k cols qx qy ∧ pixel acc.1 qx qy = true := by
  induction cols generalizing k acc with
  | zero =>
    simp only [drawColumns]
    refine ⟨Or.inl, ?_⟩
    rintro (h | ⟨qx, qy, ⟨j, h1, h2, _⟩, _⟩)
    · exact h
    · omega
  | succ cols ih =>
    rw [drawColumns, ih (k + 1) (by omega)]
    constructor
    · rintro (h | ⟨qx, qy, ⟨j, h1, h2, h3, h4, h5⟩, hp⟩)
      · rw [drawBit] at h
        split at h
        · rename_i hb
          simp only [Bool.or_eq_true] at h
          rcases h with h | h
          · exact Or.inl h
          · exact Or.inr ⟨x0 + k, py, ⟨k, le_rfl, by omega, hb, rfl, rfl⟩, h⟩
        · exact Or.inl h
      · refine Or.inr ⟨qx, qy, ⟨j, by omega, by omega, h3, h4, h5⟩, ?_⟩
        rw [pixel_drawBit, if_neg] at hp
        · exact hp
        · rintro ⟨_, h, _⟩
          simp only [dispW] at h h4
          omega
    · rintro (h | ⟨qx, qy, ⟨j, h1, h2, h3, h4, h5⟩, hp⟩)
      · refine Or.inl ?_
        rw [drawBit]
        split
        · simp [h]
        · exact h
      · rcases Nat.eq_or_lt_of_le h1 with rfl | h1
        · refine Or.inl ?_
          rw [drawBit, if_pos h3]
          simp only [Bool.or_eq_true]
          refine Or.inr ?_
          rw [← hp, ← pixel_mod acc.1 qx qy, ← h4, ← h5, pixel_mod]
        · refine Or.inr ⟨qx, qy, ⟨j, h1, by omega, h3, h4, h5⟩, ?_⟩
          rw [pixel_drawBit, if_neg]
          · exact hp
          · rintro ⟨_, h, _⟩
            simp only [dispW] at h h4
            omega

/-- The pixel (qx, qy) is covered by a 1 bit of the sprite whose rows are `rows` and whose corner is (x0, y0). -/
def rowsCover (x0 y0 : Nat) (rows : List Byte) (qx qy : Nat) : Prop :=
  ∃ r, ∃ h : r < rows.length, rowCovers x0 (y0 + r) rows[r] 0 8 qx qy

theorem rowsCover_cons (x0 y0 : Nat) (b : Byte) (bs : List Byte) (qx qy : Nat) :
    rowsCover x0 y0 (b :: bs) qx qy ↔ rowCovers x0 y0 b 0 8 qx qy ∨ rowsCover x0 (y0 + 1) bs qx qy := by
  constructor
  · rintro ⟨r, hr, h⟩
    cases r with
    | zero => exact Or.inl h
    | succ r =>
      refine Or.inr ⟨r, by simpa using hr, ?_⟩
      rw [show y0 + 1 + r = y0 + (r + 1) by omega]
      exact h
  · rintro (h | ⟨r, hr, h⟩)
    · exact ⟨0, by simp, h⟩
    · refine ⟨r + 1, by simpa using hr, ?_⟩
      rw [show y0 + (r + 1) = y0 + 1 + r by omega]
      exact h

/-- Rows of one sprite do not meet: at most 32 rows, all distinct mod 32 (R155). -/
theorem rowCovers_not_rowsCover {x0 y0 : Nat} {b : Byte} {bs : List Byte} {qx qy : Nat} (hl : bs.length < 32)
    (h : rowCovers x0 y0 b 0 8 qx qy) : ¬ rowsCover x0 (y0 + 1) bs qx qy := by
  rintro ⟨r, hr, j, _, _, _, _, h5⟩
  obtain ⟨_, _, _, _, _, h5'⟩ := h
  simp only [dispH] at h5 h5'
  omega

theorem pixel_drawRows (x0 y0 : Nat) (rows : List Byte) (hl : rows.length ≤ 32) (acc : Display × Bool) (qx qy : Nat) :
    (rowsCover x0 y0 rows qx qy → pixel (drawRows x0 y0 rows acc).1 qx qy = !pixel acc.1 qx qy) ∧
      (¬ rowsCover x0 y0 rows qx qy → pixel (drawRows x0 y0 rows acc).1 qx qy = pixel acc.1 qx qy) := by
  induction rows generalizing y0 acc with
  | nil => exact ⟨fun ⟨r, hr, _⟩ => absurd hr (by simp), fun _ => rfl⟩
  | cons b bs ih =>
    simp only [List.length_cons] at hl
    obtain ⟨ih1, ih2⟩ := ih (y0 + 1) (by omega) (drawByte x0 y0 b acc)
    obtain ⟨hb1, hb2⟩ := pixel_drawColumns x0 y0 b 8 0 (by decide) acc qx qy
    rw [drawRows, rowsCover_cons]
    refine ⟨?_, fun h => ?_⟩
    · rintro (h | h)
      · rw [ih2 (rowCovers_not_rowsCover (by omega) h)]
        exact hb1 h
      · rw [ih1 h]
        have : ¬ rowCovers x0 y0 b 0 8 qx qy := fun h' => rowCovers_not_rowsCover (by omega) h' h
        rw [show pixel (drawByte x0 y0 b acc).1 qx qy = pixel acc.1 qx qy from hb2 this]
    · rw [not_or] at h
      rw [ih2 h.2]
      exact hb2 h.1

theorem drawRows_collision (x0 y0 : Nat) (rows : List Byte) (hl : rows.length ≤ 32) (acc : Display × Bool) :
    (drawRows x0 y0 rows acc).2 = true ↔
      acc.2 = true ∨ ∃ qx qy, rowsCover x0 y0 rows qx qy ∧ pixel acc.1 qx qy = true := by
  induction rows generalizing y0 acc with
  | nil =>
    simp only [drawRows]
    refine ⟨Or.inl, ?_⟩
    rintro (h | ⟨_, _, ⟨r, hr, _⟩, _⟩)
    · exact h
    · simp at hr
  | cons b bs ih =>
    simp only [List.length_cons] at hl
    rw [drawRows, ih (y0 + 1) (by omega), drawByte, drawColumns_collision _ _ _ _ _ (by decide), or_assoc]
    have hkeep : ∀ qx qy, rowsCover x0 (y0 + 1) bs qx qy →
        pixel (drawColumns x0 y0 b 8 0 acc).1 qx qy = pixel acc.1 qx qy := fun qx qy h =>
      (pixel_drawColumns x0 y0 b 8 0 (by decide) acc qx qy).2 fun h' => rowCovers_not_rowsCover (by omega) h' h
    refine or_congr_right ⟨?_, ?_⟩
    · rintro (⟨qx, qy, h, hp⟩ | ⟨qx, qy, h, hp⟩)
      · exact ⟨qx, qy, (rowsCover_cons ..).mpr (Or.inl h), hp⟩
      · exact ⟨qx, qy, (rowsCover_cons ..).mpr (Or.inr h), (hkeep qx qy h) ▸ hp⟩
    · rintro ⟨qx, qy, h, hp⟩
      rcases (rowsCover_cons ..).mp h with h | h
      · exact Or.inl ⟨qx, qy, h, hp⟩
      · exact Or.inr ⟨qx, qy, h, (hkeep qx qy h).symm ▸ hp⟩

/-- Everything a sprite draw can do, for the at most 15 rows a `Dxyn` has (R151, R154, R155). -/
theorem drawSprite_spec (x0 y0 : Nat) (rows : List Byte) (hl : rows.length ≤ 32) (d : Display) :
    (∀ qx qy, rowsCover x0 y0 rows qx qy → pixel (drawSprite x0 y0 rows d).1 qx qy = !pixel d qx qy) ∧
      (∀ qx qy, ¬ rowsCover x0 y0 rows qx qy → pixel (drawSprite x0 y0 rows d).1 qx qy = pixel d qx qy) ∧
      ((drawSprite x0 y0 rows d).2 = true ↔ ∃ qx qy, rowsCover x0 y0 rows qx qy ∧ pixel d qx qy = true) := by
  refine ⟨fun qx qy => (pixel_drawRows x0 y0 rows hl (d, false) qx qy).1,
    fun qx qy => (pixel_drawRows x0 y0 rows hl (d, false) qx qy).2, ?_⟩
  rw [drawSprite, drawRows_collision x0 y0 rows hl]
  simp

/-- Two displays with the same pixels are equal. -/
theorem display_ext {d e : Display} (h : ∀ px py, px < dispW → py < dispH → pixel d px py = pixel e px py) : d = e := by
  apply Vector.ext
  intro py hpy
  apply BitVec.eq_of_getLsbD_eq
  intro px hpx
  have := h px py hpx hpy
  simpa only [pixel, Nat.mod_eq_of_lt hpx, Nat.mod_eq_of_lt hpy] using this

theorem pixel_blankDisplay (px py : Nat) : pixel blankDisplay px py = false := by
  simp [pixel, blankDisplay]

end Sys2Proof.Machine
end

