-- ==== Sys2Proof/Laws/Frames.lean ====
section
/-! SUPPORT. The frame of each shared update, and the ALU results in BitVec terms (R132). -/

namespace Sys2Proof.Machine

open Sys2Proof.Config

theorem Frame.refl (f : Footprint) (s : State) : Frame f s s := by
  constructor <;> simp

theorem frame_writeV (s : State) (x : Reg) (b : Byte) : Frame { regs := [x] } s (s.writeV x b) := by
  constructor <;> simp +contextual [State.readV_writeV]

theorem frame_writeResultThenFlag (s : State) (x : Reg) (result flag : Byte) :
    Frame { regs := [x, regF] } s (s.writeResultThenFlag x result flag) := by
  constructor <;> simp +contextual [State.readV_writeResultThenFlag]

theorem frame_writeFlagThenResult (s : State) (x : Reg) (flag result : Byte) :
    Frame { regs := [x, regF] } s (s.writeFlagThenResult x flag result) := by
  constructor <;> simp +contextual [State.readV_writeFlagThenResult]

theorem frame_jumpTo (s : State) (w : Word) : Frame { pc := true } s (s.jumpTo w) := by
  constructor <;> simp

theorem frame_skipIf (s : State) (c : Bool) : Frame { pc := true } s (s.skipIf c) := by
  constructor <;> simp

theorem frame_executeFault (s : State) (f : Fault) (j : Instr) : Frame { latch := true } s (s.executeFault f j) := by
  constructor <;> simp

/-- A wider footprint is a weaker frame. -/
theorem Frame.weaken {f g : Footprint} {s t : State} (h : Frame f s t)
    (regs : ∀ r, r ∈ f.regs → r ∈ g.regs) (bytes : ∀ a, a ∈ f.bytes → a ∈ g.bytes)
    (index : g.index = false → f.index = false) (pc : g.pc = false → f.pc = false)
    (delay : g.delay = false → f.delay = false) (sound : g.sound = false → f.sound = false)
    (stack : g.stack = false → f.stack = false) (display : g.display = false → f.display = false)
    (wait : g.wait = false → f.wait = false) (random : g.random = false → f.random = false)
    (latch : g.latch = false → f.latch = false) : Frame g s t where
  params := h.params
  keys := h.keys
  regs r hr := h.regs r fun hf => hr (regs r hf)
  memory a ha := h.memory a fun hf => ha (bytes a hf)
  index hg := h.index (index hg)
  pc hg := h.pc (pc hg)
  delay hg := h.delay (delay hg)
  sound hg := h.sound (sound hg)
  stack hg := h.stack (stack hg)
  display hg := h.display (display hg)
  wait hg := h.wait (wait hg)
  random hg := h.random (random hg)
  latch hg := h.latch (latch hg)

/-- Storing bytes changes those bytes and nothing else. -/
theorem frame_storeBytes {s t : State} {a : Nat} {bs : List Byte} (h : s.storeBytes a bs = some t) :
    Frame { bytes := addressesFrom a bs.length } s t := by
  rcases s.storeBytes_cases a bs with ⟨he, _⟩ | ⟨he, _⟩
  · rw [he, Option.some.injEq] at h
    subst h
    constructor <;> simp [State.readV]
    intro a' ha'
    refine memRead_memWriteBytes_outside ?_
    by_contra hc
    refine ha' (List.mem_map.mpr ⟨a' - a, List.mem_range.mpr (by omega), by omega⟩)
  · simp [he] at h

/-- Bytes stored read back (R60). -/
theorem readByte_of_storeBytes {s t : State} {a k : Nat} {bs : List Byte} (h : s.storeBytes a bs = some t)
    (hw : Memory.wf s.params.font s.mem = true) (hk : k < bs.length) : t.readByte (a + k) = bs[k] := by
  rcases s.storeBytes_cases a bs with ⟨he, hh⟩ | ⟨he, _⟩
  · rw [he, Option.some.injEq] at h
    subst h
    rcases hh with rfl | hh
    · simp at hk
    · exact memRead_memWriteBytes_inside hw hh hk
  · simp [he] at h

theorem mem_regsUpTo (x r : Reg) : r ∈ regsUpTo x ↔ r.toNat ≤ x.toNat := by
  simp only [regsUpTo, List.mem_map, List.mem_range]
  constructor
  · rintro ⟨a, h, rfl⟩
    have := x.isLt
    simp only [BitVec.toNat_ofNat]
    omega
  · intro h
    exact ⟨r.toNat, by omega, by simp⟩

theorem wrapSum_eq (a b : Byte) : wrapSum a b = a + b := by
  apply BitVec.eq_of_toNat_eq
  simp [wrapSum, BitVec.toNat_add]

theorem wrapDifference_eq (a b : Byte) : wrapDifference a b = a - b := by
  have := a.isLt
  have := b.isLt
  apply BitVec.eq_of_toNat_eq
  simp only [wrapDifference, BitVec.toNat_ofNat, BitVec.toNat_sub]
  omega

theorem shiftRight_eq (a : Byte) : shiftRight a = a >>> 1 := by
  have := a.isLt
  apply BitVec.eq_of_toNat_eq
  simp only [shiftRight, BitVec.toNat_ofNat, BitVec.toNat_ushiftRight, Nat.shiftRight_eq_div_pow]
  omega

theorem shiftLeft_eq (a : Byte) : shiftLeft a = a <<< 1 := by
  apply BitVec.eq_of_toNat_eq
  simp only [shiftLeft, BitVec.toNat_ofNat, BitVec.toNat_shiftLeft, Nat.shiftLeft_eq]
  omega

end Sys2Proof.Machine
end

