-- ==== Sys2Proof/Laws/Exec.lean ====
section
/-! SUPPORT. What every execute phase does to the fault latch and to the form of memory, said once over all
instructions. -/

namespace Sys2Proof.Machine

open Sys2Proof.Config

/-- What a push that succeeds gives (R103). -/
theorem State.push_eq_some {s t : State} {w : Word} (h : s.push w = some t) : ∃ hlt : s.sp.val < 16,
    t = { s with stack := s.stack.set s.sp.val w hlt, sp := ⟨s.sp.val + 1, by omega⟩ } := by
  rw [State.push] at h
  split at h
  · rename_i hlt
    exact ⟨hlt, (Option.some.inj h).symm⟩
  · cases h

/-- What a pop that succeeds gives (R101). -/
theorem State.pop_eq_some {s t : State} {w : Word} (h : s.pop = some (w, t)) : ∃ hpos : 0 < s.sp.val,
    w = s.stack[s.sp.val - 1]'(by have := s.sp.isLt; show s.sp.val - 1 < 16; omega) ∧
      t = { s with sp := ⟨s.sp.val - 1, by omega⟩ } := by
  rw [State.pop] at h
  split at h
  · rename_i hpos
    cases h
    exact ⟨hpos, rfl, rfl⟩
  · cases h

/-- What a store that succeeds gives (R53). -/
theorem State.storeBytes_eq_some {s t : State} {a : Nat} {bs : List Byte} (h : s.storeBytes a bs = some t) :
    (bs = [] ∨ a + bs.length ≤ memSize) ∧ t = { s with mem := memWriteBytes s.params.font s.mem a bs } := by
  rcases s.storeBytes_cases a bs with ⟨he, hok⟩ | ⟨he, _⟩
  · rw [he] at h
    exact ⟨hok, (Option.some.inj h).symm⟩
  · rw [he] at h
    cases h

/-- An execute phase either raises a fatal condition, which writes the latch and nothing else, or leaves the latch as it
is (R192, R193). -/
theorem exec_latch {i : Instr} {s t : State} (h : exec i s = .next t) :
    (∃ f : Fault, t = s.executeFault f i ∧ f ≠ .loadError ∧ f ≠ .decodeError) ∨
      (t.halted = s.halted ∧ t.faultCode = s.faultCode ∧ t.faultPc = s.faultPc ∧ t.faultOpcode = s.faultOpcode) := by
  cases i
  case ret =>
    simp only [exec, execRet] at h
    split at h
    · rename_i w s' e
      obtain ⟨_, _, rfl⟩ := State.pop_eq_some e
      cases h
      exact .inr ⟨rfl, rfl, rfl, rfl⟩
    · cases h
      exact .inl ⟨_, rfl, by decide, by decide⟩
  case call nnn =>
    simp only [exec, execCall] at h
    split at h
    · rename_i s' e
      obtain ⟨_, rfl⟩ := State.push_eq_some e
      cases h
      exact .inr ⟨rfl, rfl, rfl, rfl⟩
    · cases h
      exact .inl ⟨_, rfl, by decide, by decide⟩
  case drw x y n =>
    simp only [exec, execDrw] at h
    split at h <;> cases h
    · exact .inr ⟨rfl, rfl, rfl, rfl⟩
    · exact .inl ⟨_, rfl, by decide, by decide⟩
  case ldBVx x =>
    simp only [exec, execLdBVx] at h
    split at h <;> cases h
    · rename_i e
      rw [(State.storeBytes_eq_some e).2]
      exact .inr ⟨rfl, rfl, rfl, rfl⟩
    · exact .inl ⟨_, rfl, by decide, by decide⟩
  case ldMemVx x =>
    simp only [exec, execLdMemVx] at h
    split at h <;> cases h
    · rename_i e
      rw [(State.storeBytes_eq_some e).2]
      exact .inr ⟨rfl, rfl, rfl, rfl⟩
    · exact .inl ⟨_, rfl, by decide, by decide⟩
  case ldVxMem x =>
    simp only [exec, execLdVxMem] at h
    split at h <;> cases h
    · exact .inr ⟨rfl, rfl, rfl, rfl⟩
    · exact .inl ⟨_, rfl, by decide, by decide⟩
  case skp x =>
    simp only [exec, execSkp] at h
    split at h <;> cases h
    · exact .inr ⟨by simp, by simp, by simp, by simp⟩
    · exact .inl ⟨_, rfl, by decide, by decide⟩
  case sknp x =>
    simp only [exec, execSknp] at h
    split at h <;> cases h
    · exact .inr ⟨by simp, by simp, by simp, by simp⟩
    · exact .inl ⟨_, rfl, by decide, by decide⟩
  all_goals
    cases h
    exact .inr ⟨by simp [State.randomByte], by simp [State.randomByte], by simp [State.randomByte],
      by simp [State.randomByte]⟩

/-- Every execute phase keeps the canonical form of memory. -/
theorem exec_memory_wf {i : Instr} {s t : State} (h : exec i s = .next t)
    (hw : Memory.wf s.params.font s.mem = true) : Memory.wf t.params.font t.mem = true := by
  cases i
  case ret =>
    simp only [exec, execRet] at h
    split at h
    · rename_i w s' e
      obtain ⟨_, _, rfl⟩ := State.pop_eq_some e
      cases h
      exact hw
    · cases h
      exact hw
  case call nnn =>
    simp only [exec, execCall] at h
    split at h
    · rename_i s' e
      obtain ⟨_, rfl⟩ := State.push_eq_some e
      cases h
      exact hw
    · cases h
      exact hw
  case drw x y n =>
    simp only [exec, execDrw] at h
    split at h <;> cases h <;> exact hw
  case ldBVx x =>
    simp only [exec, execLdBVx] at h
    split at h <;> cases h
    · rename_i e
      obtain ⟨hok, rfl⟩ := State.storeBytes_eq_some e
      exact memWriteBytes_wf hw hok
    · exact hw
  case ldMemVx x =>
    simp only [exec, execLdMemVx] at h
    split at h <;> cases h
    · rename_i e
      obtain ⟨hok, rfl⟩ := State.storeBytes_eq_some e
      exact memWriteBytes_wf hw hok
    · exact hw
  case ldVxMem x =>
    simp only [exec, execLdVxMem] at h
    split at h <;> cases h <;> exact hw
  case skp x =>
    simp only [exec, execSkp] at h
    split at h <;> cases h <;> simpa using hw
  case sknp x =>
    simp only [exec, execSknp] at h
    split at h <;> cases h <;> simpa using hw
  all_goals
    cases h
    simpa [State.randomByte] using hw

end Sys2Proof.Machine
end

