-- ==== Sys2Proof/Laws/Host.lean ====
section
/-! SUPPORT. What the shared operations of keys, timers, reset and the cycle do: one spec lemma each. -/

namespace Sys2Proof.Machine

open Sys2Proof.Config

/-! ### Keys (R31, R166) -/

theorem keyIndex_of_le {b : Byte} (h : b.toNat ≤ 15) : keyIndex b = some (b.setWidth 4) := by
  rw [keyIndex, if_pos h]

theorem keyIndex_of_gt {b : Byte} (h : 15 < b.toNat) : keyIndex b = none := by
  rw [keyIndex, if_neg (by omega)]

theorem State.keyDown_setWidth {s : State} {b : Byte} (h : b.toNat ≤ 15) :
    s.keyDown (b.setWidth 4) = s.keys.getLsbD b.toNat := by
  rw [State.keyDown, BitVec.toNat_setWidth, Nat.mod_eq_of_lt (by omega)]

theorem setKey_getLsbD (keys : BitVec 16) (k : BitVec 4) (isDown : Bool) {j : Nat} (hj : j < 16) :
    (setKey keys k isDown).getLsbD j = if j = k.toNat then isDown else keys.getLsbD j := by
  have hbit : ((1#16) <<< k.toNat).getLsbD j = decide (j = k.toNat) := by
    have := k.isLt
    rw [Bool.eq_iff_iff]
    simp only [BitVec.getLsbD_shiftLeft, BitVec.getLsbD_one, Bool.and_eq_true, Bool.not_eq_true', decide_eq_true_eq,
      decide_eq_false_iff_not]
    omega
  cases isDown
  · rw [setKey, if_neg Bool.false_ne_true, BitVec.getLsbD_and, BitVec.getLsbD_not, hbit]
    by_cases h : j = k.toNat <;> simp [h, hj]
  · rw [setKey, if_pos rfl, BitVec.getLsbD_or, hbit]
    by_cases h : j = k.toNat <;> simp [h]

theorem setKey_of_same {keys : BitVec 16} {k : BitVec 4} {isDown : Bool} (h : keys.getLsbD k.toNat = isDown) :
    setKey keys k isDown = keys := by
  refine BitVec.eq_of_getLsbD_eq fun j hj => ?_
  rw [setKey_getLsbD keys k isDown hj]
  split
  · rename_i hjk
    rw [hjk, h]
  · rfl

/-- A down-edge while the wait-key latch is set (R175). -/
theorem hostSetKeyState_downEdge {k : BitVec 4} {s : State} (hh : s.halted = false)
    (hk : s.keys.getLsbD k.toNat = false) (hw : s.waitKey = true) :
    hostSetKeyState k true s =
      { State.writeV { s with keys := setKey s.keys k true } s.keyTarget (k.setWidth 8) with waitKey := false } := by
  simp [hostSetKeyState, State.keyDown, hh, hk, hw]

/-- Every other key event (R175). -/
theorem hostSetKeyState_noEdge {k : BitVec 4} {isDown : Bool} {s : State} (hh : s.halted = false)
    (h : ¬ (isDown = true ∧ s.keys.getLsbD k.toNat = false ∧ s.waitKey = true)) :
    hostSetKeyState k isDown s = { s with keys := setKey s.keys k isDown } := by
  have hc : (isDown && !s.keyDown k && s.waitKey) = false := by
    simp only [State.keyDown]
    cases isDown <;> cases hk : s.keys.getLsbD k.toNat <;> cases hw : s.waitKey <;> simp_all
  simp [hostSetKeyState, hh, hc]

/-! ### Timers (R174) -/

theorem countDown_toNat (t : Byte) : (countDown t).toNat = t.toNat - 1 := by
  have := t.isLt
  rw [countDown, BitVec.toNat_ofNat]
  omega

/-! ### What an unlisted address reads as (R35, R56) -/

theorem unlistedByte_font (font : Vector Byte fontLen) {j : Nat} (h : j < fontLen) :
    unlistedByte font (fontBase + j) = font[j] := by
  rw [unlistedByte, dif_pos (by omega)]
  simp only [Nat.add_sub_cancel_left]

theorem unlistedByte_outside (font : Vector Byte fontLen) {a : Nat} (h : a < fontBase ∨ fontBase + fontLen ≤ a) :
    unlistedByte font a = 0 := by
  rw [unlistedByte, dif_neg (by omega)]

theorem zeroMemory_wf (font : Vector Byte fontLen) : Memory.wf font (zeroMemory font) = true :=
  memWriteBytes_wf rfl (Or.inr (by simp only [List.length_replicate, fontBase, fontLen, memSize]; omega))

/-! ### The resets (R170, R171) -/

theorem zeroState_memory_wf (p : Params) : Memory.wf (zeroState p).params.font (zeroState p).mem = true := by
  simpa only [zeroState] using zeroMemory_wf p.font

theorem hostReset_memory_wf {s : State} (h : Memory.wf s.params.font s.mem = true) :
    Memory.wf (hostReset s).params.font (hostReset s).mem = true := by
  simpa only [hostReset, State.clearLatch] using memWriteBytes_wf (a := fontBase) (bs := s.params.font.toList) h
    (Or.inr (by simp only [Vector.length_toList, fontBase, fontLen, memSize]; omega))

/-- The warm reset restores the invariant whatever the state was, given canonical memory. -/
theorem hostReset_inv {s : State} (h : Memory.wf s.params.font s.mem = true) : (hostReset s).Inv where
  memoryCanonical := hostReset_memory_wf h
  pcBound := by simp [hostReset, progBase]
  stackBound k _ hlt := by simp [hostReset] at hlt
  latchClear _ := by simp [hostReset]
  latchSet hh := by simp [hostReset] at hh

/-- The cold reset is the warm reset of the zero state, reseeded. -/
theorem hostInit_inv (s : State) : (hostInit s).Inv := by
  have h := hostReset_inv (zeroState_memory_wf s.params)
  exact
    { memoryCanonical := by simpa only [hostInit] using h.memoryCanonical
      pcBound := by simpa only [hostInit] using h.pcBound
      stackBound := by simpa only [hostInit] using h.stackBound
      latchClear := by simpa only [hostInit] using h.latchClear
      latchSet := by simpa only [hostInit] using h.latchSet }

/-! ### The cycle (R90) -/

/-- Everything a cycle can do. -/
theorem step_cases (s : State) :
    ((s.halted = true ∨ s.waitKey = true) ∧ step s = .next s) ∨
    (s.halted = false ∧ s.waitKey = false ∧
      ((s.fetchWord = none ∧ step s = .next s.fetchFault) ∨
        ∃ w, s.fetchWord = some w ∧
          ((∃ r, decodeWord w = .error r ∧ step s = .next (s.advancePc.decodeFault w)) ∨
            ∃ i, decodeWord w = .ok i ∧ step s = exec i s.advancePc))) := by
  unfold step
  cases hh : s.halted
  · cases hw : s.waitKey
    · refine .inr ⟨rfl, rfl, ?_⟩
      cases hf : s.fetchWord with
      | none => exact .inl ⟨rfl, rfl⟩
      | some w =>
        refine .inr ⟨w, rfl, ?_⟩
        cases hd : decodeWord w with
        | error r => exact .inl ⟨r, rfl, by simp [hd]⟩
        | ok i => exact .inr ⟨i, rfl, by simp [hd]⟩
    · exact .inl ⟨.inr rfl, rfl⟩
  · exact .inl ⟨.inl rfl, rfl⟩

end Sys2Proof.Machine
end

