-- ==== Sys2Proof/Laws/PerInstr.lean ====
section
/-! SUPPORT. Per-instruction facts about the syntax. Family TableRow: the encoder's word has the fixed bits of the
instruction's row in the opcode map (R74). -/

namespace Sys2Proof.Laws.TableRow

open Sys2Proof

/-- The word of `i` agrees with its row's mask and match (R74: a word is the instruction when `w AND mask = match`). -/
def Statement (i : Instr) : Prop := encode i &&& tableMask i = tableMatch i

theorem mask_nnn (c : BitVec 4) (nnn : Addr12) : (c ++ nnn) &&& (0xF#4 ++ 0x000#12) = c ++ 0x000#12 := by
  rw [BitVec.and_append, BitVec.and_zero, show c &&& 0xF#4 = c from BitVec.and_allOnes]

theorem mask_xkk (c x : BitVec 4) (kk : Byte) :
    (c ++ x ++ kk) &&& (0xF#4 ++ 0x0#4 ++ 0x00#8) = c ++ 0x0#4 ++ 0x00#8 := by
  rw [BitVec.and_append, BitVec.and_append, BitVec.and_zero, BitVec.and_zero,
    show c &&& 0xF#4 = c from BitVec.and_allOnes]

theorem mask_x (c x : BitVec 4) (kk : Byte) :
    (c ++ x ++ kk) &&& (0xF#4 ++ 0x0#4 ++ 0xFF#8) = c ++ 0x0#4 ++ kk := by
  rw [BitVec.and_append, BitVec.and_append, BitVec.and_zero, show c &&& 0xF#4 = c from BitVec.and_allOnes,
    show kk &&& 0xFF#8 = kk from BitVec.and_allOnes]

theorem mask_xy (c x y n : BitVec 4) :
    (c ++ x ++ y ++ n) &&& (0xF#4 ++ 0x0#4 ++ 0x0#4 ++ 0xF#4) = c ++ 0x0#4 ++ 0x0#4 ++ n := by
  rw [BitVec.and_append, BitVec.and_append, BitVec.and_append, BitVec.and_zero, BitVec.and_zero,
    show c &&& 0xF#4 = c from BitVec.and_allOnes, show n &&& 0xF#4 = n from BitVec.and_allOnes]

theorem mask_xyn (c x y n : BitVec 4) :
    (c ++ x ++ y ++ n) &&& (0xF#4 ++ 0x0#4 ++ 0x0#4 ++ 0x0#4) = c ++ 0x0#4 ++ 0x0#4 ++ 0x0#4 := by
  rw [BitVec.and_append, BitVec.and_append, BitVec.and_append, BitVec.and_zero, BitVec.and_zero, BitVec.and_zero,
    show c &&& 0xF#4 = c from BitVec.and_allOnes]

theorem cls : Statement (.cls) := rfl
theorem ret : Statement (.ret) := rfl
theorem sys (nnn : Addr12) : Statement (.sys nnn) := mask_nnn _ nnn
theorem jp (nnn : Addr12) : Statement (.jp nnn) := mask_nnn _ nnn
theorem call (nnn : Addr12) : Statement (.call nnn) := mask_nnn _ nnn
theorem seImm (x : Reg) (kk : Byte) : Statement (.seImm x kk) := mask_xkk _ x kk
theorem sneImm (x : Reg) (kk : Byte) : Statement (.sneImm x kk) := mask_xkk _ x kk
theorem seReg (x y : Reg) : Statement (.seReg x y) := mask_xy _ x y _
theorem ldImm (x : Reg) (kk : Byte) : Statement (.ldImm x kk) := mask_xkk _ x kk
theorem addImm (x : Reg) (kk : Byte) : Statement (.addImm x kk) := mask_xkk _ x kk
theorem ldReg (x y : Reg) : Statement (.ldReg x y) := mask_xy _ x y _
theorem orReg (x y : Reg) : Statement (.orReg x y) := mask_xy _ x y _
theorem andReg (x y : Reg) : Statement (.andReg x y) := mask_xy _ x y _
theorem xorReg (x y : Reg) : Statement (.xorReg x y) := mask_xy _ x y _
theorem addReg (x y : Reg) : Statement (.addReg x y) := mask_xy _ x y _
theorem subReg (x y : Reg) : Statement (.subReg x y) := mask_xy _ x y _
theorem shr (x y : Reg) : Statement (.shr x y) := mask_xy _ x y _
theorem subnReg (x y : Reg) : Statement (.subnReg x y) := mask_xy _ x y _
theorem shl (x y : Reg) : Statement (.shl x y) := mask_xy _ x y _
theorem sneReg (x y : Reg) : Statement (.sneReg x y) := mask_xy _ x y _
theorem ldI (nnn : Addr12) : Statement (.ldI nnn) := mask_nnn _ nnn
theorem jpV0 (nnn : Addr12) : Statement (.jpV0 nnn) := mask_nnn _ nnn
theorem rnd (x : Reg) (kk : Byte) : Statement (.rnd x kk) := mask_xkk _ x kk
theorem drw (x y : Reg) (n : Nibble) : Statement (.drw x y n) := mask_xyn _ x y n
theorem skp (x : Reg) : Statement (.skp x) := mask_x _ x _
theorem sknp (x : Reg) : Statement (.sknp x) := mask_x _ x _
theorem ldVxDt (x : Reg) : Statement (.ldVxDt x) := mask_x _ x _
theorem ldVxK (x : Reg) : Statement (.ldVxK x) := mask_x _ x _
theorem ldDtVx (x : Reg) : Statement (.ldDtVx x) := mask_x _ x _
theorem ldStVx (x : Reg) : Statement (.ldStVx x) := mask_x _ x _
theorem addIVx (x : Reg) : Statement (.addIVx x) := mask_x _ x _
theorem ldFVx (x : Reg) : Statement (.ldFVx x) := mask_x _ x _
theorem ldBVx (x : Reg) : Statement (.ldBVx x) := mask_x _ x _
theorem ldMemVx (x : Reg) : Statement (.ldMemVx x) := mask_x _ x _
theorem ldVxMem (x : Reg) : Statement (.ldVxMem x) := mask_x _ x _

/-- Every instruction's word matches its row (R74). -/
theorem encode_matches_row : (i : Instr) → Statement i
  | .cls => cls
  | .ret => ret
  | .sys nnn => sys nnn
  | .jp nnn => jp nnn
  | .call nnn => call nnn
  | .seImm x kk => seImm x kk
  | .sneImm x kk => sneImm x kk
  | .seReg x y => seReg x y
  | .ldImm x kk => ldImm x kk
  | .addImm x kk => addImm x kk
  | .ldReg x y => ldReg x y
  | .orReg x y => orReg x y
  | .andReg x y => andReg x y
  | .xorReg x y => xorReg x y
  | .addReg x y => addReg x y
  | .subReg x y => subReg x y
  | .shr x y => shr x y
  | .subnReg x y => subnReg x y
  | .shl x y => shl x y
  | .sneReg x y => sneReg x y
  | .ldI nnn => ldI nnn
  | .jpV0 nnn => jpV0 nnn
  | .rnd x kk => rnd x kk
  | .drw x y n => drw x y n
  | .skp x => skp x
  | .sknp x => sknp x
  | .ldVxDt x => ldVxDt x
  | .ldVxK x => ldVxK x
  | .ldDtVx x => ldDtVx x
  | .ldStVx x => ldStVx x
  | .addIVx x => addIVx x
  | .ldFVx x => ldFVx x
  | .ldBVx x => ldBVx x
  | .ldMemVx x => ldMemVx x
  | .ldVxMem x => ldVxMem x

/-! ### What matching a row says of a word's fields -/

theorem fieldOp_of_row {w v : Word} (h : w &&& 0xF000#16 = v) : fieldOp w = fieldOp v := by
  rw [← h, show (0xF000#16) = (0xF#4 ++ 0x000#12) from rfl]
  conv => rhs; rw [← word_of_nnn w]
  rw [mask_nnn, fieldOp_nnn]

theorem fields_of_xy_row {w v : Word} (h : w &&& 0xF00F#16 = v) : fieldOp w = fieldOp v ∧ fieldN w = fieldN v := by
  have e : (w &&& (0xF#4 ++ 0x0#4 ++ 0x0#4 ++ 0xF#4)) = fieldOp w ++ 0x0#4 ++ 0x0#4 ++ fieldN w := by
    conv => lhs; rw [← word_of_xyn w]
    exact mask_xy ..
  rw [← h, show (0xF00F#16) = (0xF#4 ++ 0x0#4 ++ 0x0#4 ++ 0xF#4) from rfl, e, fieldOp_xyn, fieldN_xyn]
  exact ⟨rfl, rfl⟩

theorem fields_of_x_row {w v : Word} (h : w &&& 0xF0FF#16 = v) : fieldOp w = fieldOp v ∧ fieldKK w = fieldKK v := by
  have e : (w &&& (0xF#4 ++ 0x0#4 ++ 0xFF#8)) = fieldOp w ++ 0x0#4 ++ fieldKK w := by
    conv => lhs; rw [← word_of_xkk w]
    exact mask_x ..
  rw [← h, show (0xF0FF#16) = (0xF#4 ++ 0x0#4 ++ 0xFF#8) from rfl, e, fieldOp_xkk, fieldKK_xkk]
  exact ⟨rfl, rfl⟩

end Sys2Proof.Laws.TableRow
end

