-- ==== Sys2Proof/Tests/Slice0.lean ====
section
/-! SUPPORT. Tests. Expected values come from spec/95_test_vectors.md (the part is named at each group) or are worked out
by hand from the rule named. Witnesses: for every obligation with hypotheses, a concrete state and operands that meet
them all together, each clause at a boundary of its range. -/

namespace Sys2Proof.Tests

open Sys2Proof.Machine Sys2Proof.Config

/-! ### Helpers -/

/-- Whether a step goes on to a state of which `p` holds. -/
def after (s : State) (p : State → Bool) : Bool :=
  match step s with
  | .next t => p t
  | _ => false

/-- Whether an outcome is a next state of which `p` holds. -/
def nextIs (o : Host.Outcome State Fault Refusal) (p : State → Bool) : Bool :=
  match o with
  | .next t => p t
  | _ => false

/-- The reset state with registers set. -/
def withRegs (regs : List (Reg × Byte)) : State := regs.foldl (fun s r => s.writeV r.1 r.2) State.reset

/-- The cycle that runs the word `w` placed at `s`'s pc. -/
def run (w : Nat) (s : State) (p : State → Bool) : Bool := after (s.withFetchWord 16 w) p

/-- A display with these pixels lit. -/
def lit (pixels : List (Nat × Nat)) : Display := pixels.foldl (fun d q => togglePixel d q.1 q.2) blankDisplay

/-! ### Well-formedness: the terms the check refuses, and their neighbours -/

theorem test_wf_refuses_sys_0E0 : (Instr.sys 0x0E0#12).wellFormed = false := by decide
theorem test_wf_refuses_sys_0EE : (Instr.sys 0x0EE#12).wellFormed = false := by decide
theorem test_wf_admits_sys_neighbours :
    (Instr.sys 0x0E1#12).wellFormed = true ∧ (Instr.sys 0x000#12).wellFormed = true := by decide
theorem test_memory_wf_refuses :
    Memory.wf defaultFont [(0x300, 1), (0x200, 1)] = false ∧ Memory.wf defaultFont [(0x300, 0)] = false ∧
    Memory.wf defaultFont [(0x100, 0xF0)] = false ∧ Memory.wf defaultFont [(0x1000, 1)] = false := by decide

/-! ### Decoding: words written out from the patterns of R74 and the vectors of 95_test_vectors.md 2.1 -/

theorem test_decode_family0 : decodeWord 0x00E0 = .ok .cls ∧ decodeWord 0x00EE = .ok .ret ∧
    decodeWord 0x00E1 = .ok (.sys 0x0E1) ∧ decodeWord 0x0000 = .ok (.sys 0) ∧ decodeWord 0x0FFF = .ok (.sys 0xFFF) := by
  decide
theorem test_decode_jumps : decodeWord 0x1ABC = .ok (.jp 0xABC) ∧ decodeWord 0x2DEF = .ok (.call 0xDEF) ∧
    decodeWord 0xBFFF = .ok (.jpV0 0xFFF) := by decide
theorem test_decode_skips : decodeWord 0x3500 = .ok (.seImm 5 0) ∧ decodeWord 0x45FF = .ok (.sneImm 5 0xFF) ∧
    decodeWord 0x5AB0 = .ok (.seReg 0xA 0xB) ∧ decodeWord 0x9AB0 = .ok (.sneReg 0xA 0xB) ∧
    decodeWord 0x5AB1 = .error .family5 ∧ decodeWord 0x9AB1 = .error .family9 := by decide
theorem test_decode_immediates : decodeWord 0x61FF = .ok (.ldImm 1 0xFF) ∧ decodeWord 0x7180 = .ok (.addImm 1 0x80) ∧
    decodeWord 0xC10F = .ok (.rnd 1 0x0F) := by decide
theorem test_decode_family8 : decodeWord 0x8120 = .ok (.ldReg 1 2) ∧ decodeWord 0x8121 = .ok (.orReg 1 2) ∧
    decodeWord 0x8122 = .ok (.andReg 1 2) ∧ decodeWord 0x8123 = .ok (.xorReg 1 2) ∧
    decodeWord 0x8124 = .ok (.addReg 1 2) ∧ decodeWord 0x8125 = .ok (.subReg 1 2) ∧
    decodeWord 0x8126 = .ok (.shr 1 2) ∧ decodeWord 0x8127 = .ok (.subnReg 1 2) ∧
    decodeWord 0x812E = .ok (.shl 1 2) := by decide
theorem test_decode_family8_illegal : decodeWord 0x8AB8 = .error .family8 ∧ decodeWord 0x8ABD = .error .family8 ∧
    decodeWord 0x8ABF = .error .family8 := by decide
theorem test_decode_index_display : decodeWord 0xA2F0 = .ok (.ldI 0x2F0) ∧ decodeWord 0xD125 = .ok (.drw 1 2 5) := by
  decide
theorem test_decode_familyE : decodeWord 0xE19E = .ok (.skp 1) ∧ decodeWord 0xE1A1 = .ok (.sknp 1) ∧
    decodeWord 0xE19F = .error .familyE := by decide
theorem test_decode_familyF : decodeWord 0xF107 = .ok (.ldVxDt 1) ∧ decodeWord 0xF10A = .ok (.ldVxK 1) ∧
    decodeWord 0xF215 = .ok (.ldDtVx 2) ∧ decodeWord 0xF318 = .ok (.ldStVx 3) ∧ decodeWord 0xF41E = .ok (.addIVx 4) ∧
    decodeWord 0xF529 = .ok (.ldFVx 5) ∧ decodeWord 0xF633 = .ok (.ldBVx 6) ∧ decodeWord 0xF755 = .ok (.ldMemVx 7) ∧
    decodeWord 0xF865 = .ok (.ldVxMem 8) := by decide
theorem test_decode_familyF_illegal : decodeWord 0xF100 = .error .familyF ∧ decodeWord 0xF175 = .error .familyF ∧
    decodeWord 0xF185 = .error .familyF ∧ decodeWord 0xFFFF = .error .familyF := by decide
theorem test_decode_bytes_big_endian : decode [0xA2, 0xF0, 0x12] = .ok (.ldI 0x2F0, [0x12]) ∧
    decode [0xA2] = .error .tooShort := by decide
theorem test_decode_table_word : decodeTableWord 16 0xD125 = some (.drw 1 2 5) ∧ decodeTableWord 16 0x5AB1 = none := by
  decide
theorem test_encode_drw : encode (.drw 1 2 5) = 0xD125 ∧ encode (.shl 0xA 0xB) = 0x8ABE := by decide

/-! ### Control flow (95_test_vectors.md 2.2) -/

theorem test_sys : run 0x0ABC State.reset (fun t => t.pc == 0x202 && t.halted == false) = true := by decide
theorem test_jp : run 0x1ABC State.reset (·.pc == 0xABC) = true := by decide
theorem test_jp_odd : run 0x1201 State.reset (·.pc == 0x201) = true := by decide
theorem test_call : run 0x2DEF { State.reset with pc := 0xABC }
    (fun t => t.stack[0] == 0xABE && t.sp == 1 && t.pc == 0xDEF) = true := by decide
theorem test_call_overflow : run 0x2300 { State.reset with sp := 16 }
    (fun t => t.halted && t.faultCode == 2 && t.faultPc == 0x200 && t.faultOpcode == 0x2300 && t.sp == 16 &&
      t.pc == 0x202) = true := by decide
theorem test_ret : run 0x00EE { State.reset with pc := 0xDEF, sp := 1, stack := State.reset.stack.set 0 0xABE }
    (fun t => t.sp == 0 && t.pc == 0xABE && t.stack[0] == 0xABE) = true := by decide
theorem test_ret_underflow : run 0x00EE State.reset
    (fun t => t.halted && t.faultCode == 3 && t.faultOpcode == 0x00EE && t.pc == 0x202) = true := by decide
theorem test_seImm_taken : run 0x3500 State.reset (·.pc == 0x204) = true := by decide
theorem test_seImm_not_taken : run 0x3500 (withRegs [(5, 1)]) (·.pc == 0x202) = true := by decide
theorem test_sneImm_not_taken : run 0x4500 State.reset (·.pc == 0x202) = true := by decide
theorem test_sneImm_taken : run 0x4500 (withRegs [(5, 0xFF)]) (·.pc == 0x204) = true := by decide
theorem test_seReg_taken : run 0x5120 (withRegs [(1, 0x80), (2, 0x80)]) (·.pc == 0x204) = true := by decide
theorem test_seReg_not_taken : run 0x5120 (withRegs [(1, 0x80), (2, 0x7F)]) (·.pc == 0x202) = true := by decide
theorem test_sneReg_not_taken : run 0x9120 (withRegs [(1, 0x80), (2, 0x80)]) (·.pc == 0x202) = true := by decide
theorem test_sneReg_taken : run 0x9120 (withRegs [(1, 0x80), (2, 0x7F)]) (·.pc == 0x204) = true := by decide
theorem test_jpV0_past_memory : run 0xBFFF (withRegs [(0, 0xFF)]) (·.pc == 0x10FE) = true := by decide

/-! ### Loads, arithmetic, logic, random (95_test_vectors.md 1, 2.3) -/

theorem test_ldImm : run 0x61FF (withRegs [(1, 0x33), (0xF, 1)]) (fun t => t.readV 1 == 0xFF && t.readV 0xF == 1) = true := by
  decide
theorem test_addImm_wraps : run 0x7180 (withRegs [(1, 0x80), (0xF, 1)])
    (fun t => t.readV 1 == 0 && t.readV 0xF == 1) = true := by decide
theorem test_addImm_to_VF : run 0x7F01 (withRegs [(0xF, 0xFF)]) (fun t => t.readV 0xF == 0) = true := by decide
theorem test_ldReg : run 0x8120 (withRegs [(2, 0xAB), (0xF, 1)]) (fun t => t.readV 1 == 0xAB && t.readV 0xF == 1) = true := by
  decide
theorem test_orReg : run 0x8121 (withRegs [(1, 0xF0), (2, 0x0F), (0xF, 1)])
    (fun t => t.readV 1 == 0xFF && t.readV 0xF == 1) = true := by decide
theorem test_andReg : run 0x8122 (withRegs [(1, 0xF3), (2, 0x3C), (0xF, 1)])
    (fun t => t.readV 1 == 0x30 && t.readV 0xF == 1) = true := by decide
theorem test_xorReg : run 0x8123 (withRegs [(1, 0xFF), (2, 0x0F), (0xF, 1)])
    (fun t => t.readV 1 == 0xF0 && t.readV 0xF == 1) = true := by decide
theorem test_addReg : run 0x8124 (withRegs [(1, 0xC8), (2, 0x64)])
    (fun t => t.readV 1 == 0x2C && t.readV 0xF == 1 && t.readV 2 == 0x64) = true := by decide
theorem test_addReg_VF_keeps_carry : run 0x8F14 (withRegs [(0xF, 0xF0), (1, 0x20)]) (fun t => t.readV 0xF == 1) = true := by
  decide
theorem test_subReg_borrow : run 0x8125 (withRegs [(1, 5), (2, 7), (0xF, 1)])
    (fun t => t.readV 1 == 0xFE && t.readV 0xF == 0) = true := by decide
theorem test_subReg_VF_keeps_result : run 0x8F15 (withRegs [(0xF, 5), (1, 3)]) (fun t => t.readV 0xF == 2) = true := by
  decide
theorem test_shr_shifts_x : run 0x8126 (withRegs [(1, 5), (2, 0x81)])
    (fun t => t.readV 1 == 2 && t.readV 2 == 0x81 && t.readV 0xF == 1) = true := by decide
theorem test_shr_VF_keeps_result : run 0x8F06 (withRegs [(0xF, 5)]) (fun t => t.readV 0xF == 2) = true := by decide
theorem test_subnReg : run 0x8127 (withRegs [(1, 7), (2, 5), (0xF, 1)])
    (fun t => t.readV 1 == 0xFE && t.readV 0xF == 0) = true := by decide
theorem test_subnReg_equal : run 0x8127 (withRegs [(1, 7), (2, 7)])
    (fun t => t.readV 1 == 0 && t.readV 0xF == 1) = true := by decide
theorem test_shl_shifts_y : run 0x812E (withRegs [(1, 5), (2, 0x81)])
    (fun t => t.readV 1 == 2 && t.readV 2 == 0x81 && t.readV 0xF == 1) = true := by decide
theorem test_shl_VF_source : run 0x81FE (withRegs [(0xF, 0x81)]) (fun t => t.readV 1 == 2 && t.readV 0xF == 1) = true := by
  decide

/-- `C100`: the masked draw is 0 whatever the draw is, and the draw is consumed (R131). -/
theorem test_rnd_mask_zero : exec (.rnd 1 0) State.reset =
    .next ({ State.reset with rng := (rngNext (rngSeed 1234)).2 }.writeV 1 0) := by
  simp [exec, execRnd, State.randomByte, State.reset]

/-! ### Address register and memory (95_test_vectors.md 2.4) -/

theorem test_ldI : run 0xAFFF { State.reset with i := 0x123 } (·.i == 0xFFF) = true := by decide
theorem test_addIVx_past_memory : run 0xF21E { withRegs [(2, 1)] with i := 0xFFF }
    (fun t => t.i == 0x1000 && t.readV 0xF == 0) = true := by decide
theorem test_addIVx_wraps : run 0xF21E { withRegs [(2, 0x20)] with i := 0xFFF0 } (·.i == 0x10) = true := by decide
theorem test_ldFVx : run 0xF329 (withRegs [(3, 0x0F)]) (·.i == 0x14B) = true := by decide
theorem test_ldFVx_no_masking : run 0xF329 (withRegs [(3, 0xFF)]) (·.i == 0x5FB) = true := by decide
theorem test_ldBVx_top_of_memory : run 0xF133 { withRegs [(1, 0x7B)] with i := 0xFFD }
    (fun t => t.readByte 0xFFD == 1 && t.readByte 0xFFE == 2 && t.readByte 0xFFF == 3 && t.i == 0xFFD) = true := by decide
theorem test_ldBVx_beyond_memory : run 0xF133 { withRegs [(1, 0x7B)] with i := 0xFFE }
    (fun t => t.halted && t.faultCode == 5 && t.readByte 0xFFE == 0 && t.pc == 0x202) = true := by decide
theorem test_ldMemVx : run 0xF255 { withRegs [(0, 0x11), (1, 0x22), (2, 0x33), (3, 0x44)] with i := 0x400 }
    (fun t => t.readByte 0x400 == 0x11 && t.readByte 0x401 == 0x22 && t.readByte 0x402 == 0x33 && t.readByte 0x403 == 0 &&
      t.i == 0x400) = true := by decide
theorem test_ldMemVx_beyond_memory : run 0xF255 { withRegs [(0, 0x11)] with i := 0xFFE }
    (fun t => t.faultCode == 5 && t.faultPc == 0x200 && t.faultOpcode == 0xF255 && t.readByte 0xFFE == 0) = true := by decide
theorem test_ldVxMem : run 0xF265
    { withRegs [(3, 0x99)] with i := 0x400, mem := [(0x400, 0x11), (0x401, 0x22), (0x402, 0x33), (0x403, 0x44)] }
    (fun t => t.readV 0 == 0x11 && t.readV 1 == 0x22 && t.readV 2 == 0x33 && t.readV 3 == 0x99 && t.i == 0x400) = true := by
  decide
theorem test_ldVxMem_glyph0 : run 0xF465 { State.reset with i := 0x100 }
    (fun t => t.readV 0 == 0xF0 && t.readV 1 == 0x90 && t.readV 4 == 0xF0) = true := by decide

/-! ### Display (95_test_vectors.md 2.5) -/

theorem test_cls : run 0x00E0 { withRegs [(0xF, 1)] with disp := lit [(3, 1), (63, 31)] }
    (fun t => t.disp == blankDisplay && t.readV 0xF == 1) = true := by decide
theorem test_drw_wraps : run 0xD011 { withRegs [(0, 60), (1, 31)] with i := 0x300, mem := [(0x300, 0xFF)] }
    (fun t => t.disp == lit [(60, 31), (61, 31), (62, 31), (63, 31), (0, 31), (1, 31), (2, 31), (3, 31)] &&
      t.readV 0xF == 0) = true := by decide
theorem test_drw_collision_VF_column : run 0xDF11
    { withRegs [(0xF, 3)] with i := 0x300, mem := [(0x300, 0x80)], disp := lit [(3, 0)] }
    (fun t => t.disp == blankDisplay && t.readV 0xF == 1) = true := by decide

/-! ### Keys and timers (95_test_vectors.md 2.6) -/

theorem test_skp_down : run 0xE19E { withRegs [(1, 0xF)] with keys := 0x8000 } (·.pc == 0x204) = true := by decide
theorem test_skp_no_key : run 0xE19E (withRegs [(1, 0x10)])
    (fun t => t.halted && t.faultCode == 6 && t.pc == 0x202) = true := by decide
theorem test_sknp_down : run 0xE1A1 { withRegs [(1, 5)] with keys := 0x0020 } (·.pc == 0x202) = true := by decide
theorem test_sknp_up : run 0xE1A1 State.reset (·.pc == 0x204) = true := by decide
theorem test_ldVxDt : run 0xF307 { State.reset with dt := 0x3C } (fun t => t.readV 3 == 0x3C && t.dt == 0x3C) = true := by
  decide
theorem test_ldVxK : run 0xF20A (withRegs [(2, 7)])
    (fun t => t.waitKey && t.keyTarget == 2 && t.pc == 0x202 && t.readV 2 == 7) = true := by decide
theorem test_ldDtVx : run 0xF215 (withRegs [(2, 0x3C)]) (fun t => t.dt == 0x3C && t.st == 0) = true := by decide
theorem test_ldStVx : run 0xF218 { State.reset with st := 9 } (fun t => t.st == 0 && !isBuzzerActive t) = true := by decide

/-! ### The cycle and the host's operations (95_test_vectors.md 2.2, 2.6, 2.7, 3) -/

theorem test_fetch_last_legal : after { State.reset with pc := 0xFFE, mem := [(0xFFE, 0x12)] } (·.pc == 0x200) = true := by
  decide
theorem test_fetch_beyond : after { State.reset with pc := 0xFFF }
    (fun t => t.halted && t.faultCode == 5 && t.faultPc == 0xFFF && t.faultOpcode == 0 && t.pc == 0xFFF) = true := by decide
theorem test_illegal_word : after { State.reset with pc := 0x202, mem := [(0x202, 0x81), (0x203, 0x28)] }
    (fun t => t.halted && t.faultCode == 4 && t.faultPc == 0x202 && t.faultOpcode == 0x8128 && t.pc == 0x204) = true := by
  decide
theorem test_stalled : after { State.reset with waitKey := true } (fun t => t.pc == 0x200 && t.waitKey) = true := by decide
theorem test_tick_stalled : nextIs (hostStep .tick { State.reset with waitKey := true, dt := 2, st := 0 })
    (fun t => t.dt == 1 && t.st == 0) = true := by decide
theorem test_key_resolves_wait : nextIs (hostStep (.setKeyState 0 true)
      { withRegs [(2, 9)] with keys := 0x0008, waitKey := true, keyTarget := 2 })
    (fun t => t.keys == 0x0009 && t.readV 2 == 0 && !t.waitKey) = true := by decide
theorem test_key_already_down : nextIs (hostStep (.setKeyState 3 true)
      { State.reset with keys := 0x0008, waitKey := true, keyTarget := 2 })
    (fun t => t.keys == 0x0008 && t.waitKey) = true := by decide
theorem test_load_program : nextIs (hostStep (.loadProgram [0xAA, 0xBB])
      { State.reset with mem := [(0x200, 0x11), (0x201, 0x22), (0x202, 0x33)] })
    (fun t => t.mem == [(0x200, 0xAA), (0x201, 0xBB), (0x202, 0x33)]) = true := by decide
theorem test_reset_keeps_VF_and_memory : nextIs (hostStep .reset
      { withRegs [(0, 0x12), (0xE, 0x34), (0xF, 1)] with
        i := 0x345, pc := 0x456, sp := 3, dt := 9, keys := 0xFFFF, waitKey := true, mem := [(0x100, 0), (0x300, 0xAA)] })
    (fun t => t.readV 0 == 0 && t.readV 0xE == 0 && t.readV 0xF == 1 && t.i == 0 && t.pc == 0x200 && t.sp == 0 &&
      t.keys == 0 && !t.waitKey && t.mem == [(0x300, 0xAA)]) = true := by decide
theorem test_get_pixel_wraps : getPixel { State.reset with disp := lit [(3, 1)] } 67 33 = true ∧
    getPixel { State.reset with disp := lit [(3, 1)] } 131 65 = true := by decide

/-! ### Witnesses: states and operands that meet the hypotheses of the obligations -/

theorem witness_DecodeOfEncodedBytes : (Instr.drw 0xF 0xF 0xF).wellFormed = true ∧ (Instr.sys 0x0DF).wellFormed = true := by
  decide
theorem witness_EncodeOfDecodedWord : decodeWord 0xFF65 = .ok (.ldVxMem 0xF) := by decide
theorem witness_DecodeFollowsOpcodeMap : decodeWord 0x00E0 = .ok .cls ∧
    0x00E0 &&& tableMask (.sys 0x0E0) = tableMatch (.sys 0x0E0) := by decide

/-- A running state at the last legal fetch address, whose word is `1200`. -/
def atLastFetch : State := { State.reset with pc := 0xFFE, mem := [(0xFFE, 0x12)] }

theorem witness_StepRunsDecodedInstruction : atLastFetch.halted = false ∧ atLastFetch.waitKey = false ∧
    atLastFetch.pc.toNat < 0xFFF ∧
    decodeWord (atLastFetch.readByte atLastFetch.pc.toNat ++ atLastFetch.readByte (atLastFetch.pc.toNat + 1)) =
      .ok (.jp 0x200) := by decide
theorem witness_FetchAdvancesOrFaults_below : atLastFetch.halted = false ∧ atLastFetch.waitKey = false ∧
    atLastFetch.pc.toNat < 0xFFF := by decide

/-- A running state at the first illegal fetch address. -/
def atFirstBadFetch : State := { State.reset with pc := 0xFFF }

theorem witness_FetchAdvancesOrFaults_above : atFirstBadFetch.halted = false ∧ atFirstBadFetch.waitKey = false ∧
    0xFFF ≤ atFirstBadFetch.pc.toNat := by decide

/-- A running state about to fetch the illegal word `5AB1`. -/
def atIllegalWord : State := { State.reset with mem := [(0x200, 0x5A), (0x201, 0xB1)] }

theorem witness_IllegalWordRaisesDecodeError_raised : atIllegalWord.halted = false ∧ atIllegalWord.waitKey = false ∧
    atIllegalWord.pc.toNat < 0xFFF ∧
    decodeWord (atIllegalWord.readByte atIllegalWord.pc.toNat ++ atIllegalWord.readByte (atIllegalWord.pc.toNat + 1)) =
      .error .family5 := by decide
theorem witness_IllegalWordRaisesDecodeError_only : atIllegalWord.halted = false ∧
    after atIllegalWord (fun t => t.halted && t.faultCode == 4) = true := by decide

/-- A halted state. -/
def haltedState : State := { State.reset with halted := true, faultCode := 3, faultPc := 0x200, faultOpcode := 0x00EE }

/-- A stalled state: key 3 is down, the target is V2. -/
def stalledState : State := { State.reset with waitKey := true, keyTarget := 2, keys := 0x0008 }

theorem witness_HaltedOrStalledCycleDoesNothing : haltedState.halted = true ∧ stalledState.waitKey = true := by decide
theorem witness_SysDoesNothing : (0x0E1#12 ≠ 0x0E0#12 ∧ 0x0E1#12 ≠ 0x0EE#12) ∧ (0x0ED#12 ≠ 0x0E0#12 ∧ 0x0ED#12 ≠ 0x0EE#12) := by
  decide

/-- One slot of the call stack free. -/
def almostFullStack : State := { State.reset with sp := 15 }

/-- No slot of the call stack free. -/
def fullStack : State := { State.reset with sp := 16 }

theorem witness_CallPushesReturnAddress_room : almostFullStack.sp.val < 16 := by decide
theorem witness_CallPushesReturnAddress_full : fullStack.sp.val = 16 := by decide
theorem witness_RetPopsReturnAddress_pop : 0 < fullStack.sp.val ∧ 0 < State.sp { State.reset with sp := 1 } := by decide
theorem witness_RetPopsReturnAddress_empty : State.reset.sp.val = 0 := by decide
theorem witness_ReturnUndoesCall : almostFullStack.sp.val < 16 := by decide
theorem witness_CallsSucceedUntilStackFull : State.reset.halted = false ∧
    State.reset.sp.val + (List.replicate 16 (0x200#12)).length = 16 := by decide
theorem witness_flag_results_not_VF : (0xE#4 : Reg) ≠ 0xF#4 := by decide
theorem witness_RandomByteMasked : (0x00 : Byte) &&& 0x0F = 0 := by decide

/-- A state with `I` at `i` and one byte of memory written. -/
def indexAt (i : Word) : State := { State.reset with i := i, mem := [(0x300, 0x80)] }

theorem witness_DecimalDigitsStored_fits : (indexAt 0xFFD).base + 2 ≤ 0xFFF ∧
    Memory.wf (indexAt 0xFFD).params.font (indexAt 0xFFD).mem = true := by decide
theorem witness_DecimalDigitsStored_beyond : 0xFFF < (indexAt 0xFFE).base + 2 := by decide
theorem witness_RegistersStored_fits : (indexAt 0xFF0).base + (0xF : Reg).toNat ≤ 0xFFF ∧
    Memory.wf (indexAt 0xFF0).params.font (indexAt 0xFF0).mem = true ∧ (0xF : Reg).toNat ≤ (0xF : Reg).toNat := by decide
theorem witness_RegistersStored_beyond : 0xFFF < (indexAt 0xFF1).base + (0xF : Reg).toNat := by decide
theorem witness_RegistersLoaded_fits : (indexAt 0xFFF).base + (0 : Reg).toNat ≤ 0xFFF := by decide
theorem witness_RegistersLoaded_beyond : 0xFFF < (indexAt 0x1000).base + (0 : Reg).toNat := by decide
theorem witness_LoadAfterStoreRestoresRegisters : Memory.wf (indexAt 0xFF0).params.font (indexAt 0xFF0).mem = true ∧
    (indexAt 0xFF0).base + (0xF : Reg).toNat ≤ 0xFFF := by decide

/-- `F155` at pc and `I` just past it. -/
def storesOverNext : State :=
  { withRegs [(0, 0x63), (1, 0x07)] with pc := 0xFFC, i := 0xFFE, mem := [(0xFFC, 0xF1), (0xFFD, 0x55)] }

theorem witness_StoreSeenByNextFetch : storesOverNext.halted = false ∧ storesOverNext.waitKey = false ∧
    Memory.wf storesOverNext.params.font storesOverNext.mem = true ∧ storesOverNext.pc.toNat + 3 ≤ 0xFFF ∧
    storesOverNext.readByte storesOverNext.pc.toNat = 0xF1#8 ∧
    storesOverNext.readByte (storesOverNext.pc.toNat + 1) = 0x55#8 ∧ storesOverNext.i = storesOverNext.pc + 2 := by decide
theorem witness_CanonicalMemoriesEqual : Memory.wf defaultFont [(0x100, 0), (0x300, 1)] = true ∧
    memWrite defaultFont [(0x300, 1)] 0x100 0 = [(0x100, 0), (0x300, 1)] := by decide

/-- A sprite row `80` at 0x300, and the pixel it lands on lit. -/
def overLitPixel : State := { indexAt 0x300 with disp := lit [(0, 0)] }

theorem witness_SpriteXorsDisplay_covered : overLitPixel.base + (1 : Nibble).toNat - 1 ≤ 0xFFF ∧
    (overLitPixel.readByte (overLitPixel.base + 0)).getLsbD (7 - 0) = true ∧ pixel overLitPixel.disp 0 0 = true := by decide
theorem witness_SpriteXorsDisplay_collides :
    overLitPixel.SpriteCovers (overLitPixel.readV 0).toNat (overLitPixel.readV 1).toNat 1 0 0 :=
  ⟨0, 0, by decide, by decide, by decide, by decide, by decide⟩
theorem witness_SpriteXorsDisplay_not_covered :
    ¬ overLitPixel.SpriteCovers (overLitPixel.readV 0).toNat (overLitPixel.readV 1).toNat 0 0 0 := by
  rintro ⟨r, k, h, _⟩
  exact absurd h (Nat.not_lt_zero r)
theorem witness_SpriteXorsDisplay_fits : (indexAt 0xFF1).base + (0xF : Nibble).toNat - 1 ≤ 0xFFF ∧ (0 : Nibble).toNat = 0 := by
  decide
theorem witness_SpriteXorsDisplay_beyond : 0 < (0xF : Nibble).toNat ∧ 0xFFF < (indexAt 0xFF2).base + (0xF : Nibble).toNat - 1 := by
  decide
theorem witness_SpriteDrawnTwiceRestoresDisplay : (indexAt 0x300).base + (1 : Nibble).toNat - 1 ≤ 0xFFF ∧
    (indexAt 0x300).disp = blankDisplay ∧ 0 < (1 : Nibble).toNat ∧ (indexAt 0x300).readByte ((indexAt 0x300).base + 0) ≠ 0 := by
  decide
theorem witness_KeySkips_key : ((withRegs [(1, 0xF)]).readV 1).toNat ≤ 15 := by decide
theorem witness_KeySkips_no_key : 15 < ((withRegs [(1, 0x10)]).readV 1).toNat := by decide
theorem witness_WaitForKeyStallsUntilDownEdge : stalledState.halted = false ∧
    stalledState.keys.getLsbD (0xF#4).toNat = false ∧ stalledState.keys.getLsbD (3#4).toNat = true := by decide
theorem witness_KeyEvents_halted : haltedState.halted = true := by decide
theorem witness_KeyEvents_edge : stalledState.halted = false ∧
    (true = true ∧ stalledState.keys.getLsbD (0#4).toNat = false ∧ stalledState.waitKey = true) := by decide
theorem witness_KeyEvents_no_edge : stalledState.halted = false ∧
    ¬ (true = true ∧ stalledState.keys.getLsbD (3#4).toNat = false ∧ stalledState.waitKey = true) := by decide
theorem witness_TimerTick : haltedState.halted = true ∧ stalledState.halted = false := by decide
theorem witness_TimersReachZeroAfterTheirValue : State.halted { State.reset with dt := 2, st := 1 } = false := by decide
theorem witness_ProgramLoaded_longest : State.reset.halted = false ∧ (List.replicate 3584 (0 : Byte)).length ≤ 3584 ∧
    0 < (List.replicate 3584 (0 : Byte)).length ∧ Memory.wf State.reset.params.font State.reset.mem = true := by
  rw [List.length_replicate]
  decide
theorem witness_ProgramLoaded_too_long : State.reset.halted = false ∧ 3584 < (List.replicate 3585 (0 : Byte)).length := by
  rw [List.length_replicate]
  decide
theorem witness_ProgramLoaded_halted : haltedState.halted = true := by decide
theorem witness_BootFetchesFirstWord : ([] : List Byte).length ≤ 3582 ∧ (List.replicate 3582 (0 : Byte)).length ≤ 3582 := by
  rw [List.length_replicate]
  decide
theorem witness_WarmReset : Memory.wf (indexAt 0).params.font (indexAt 0).mem = true ∧ (0xE : Reg) ≠ 0xF#4 := by decide
theorem witness_OutputsReadTheState : 63 < 64 ∧ 31 < 32 := by decide
theorem witness_FatalConditionsOfInstructions_call : fullStack.halted = false ∧
    nextIs (exec (.call 0x300) fullStack) (·.halted) = true := by decide
theorem witness_FatalConditionsOfInstructions_drw : (indexAt 0xFFF).halted = false ∧
    nextIs (exec (.drw 0 1 2) (indexAt 0xFFF)) (·.halted) = true ∧
    nextIs (exec (.drw 0 1 1) (indexAt 0xFFF)) (!·.halted) = true := by decide
theorem witness_FatalConditionsOfInstructions_memory : (indexAt 0xFFE).halted = false ∧
    nextIs (exec (.ldBVx 0) (indexAt 0xFFE)) (·.halted) = true ∧
    nextIs (exec (.ldMemVx 2) (indexAt 0xFFE)) (·.halted) = true ∧
    nextIs (exec (.ldVxMem 1) (indexAt 0xFFE)) (!·.halted) = true := by decide
theorem witness_FatalConditionsOfInstructions_keys : nextIs (exec (.skp 1) (withRegs [(1, 0x10)])) (·.halted) = true ∧
    nextIs (exec (.sknp 1) (withRegs [(1, 0xF)])) (!·.halted) = true ∧
    nextIs (exec .ret State.reset) (·.halted) = true := by decide
theorem witness_FatalConditionsArePrecise : atIllegalWord.halted = false ∧ after atIllegalWord (·.halted) = true := by decide
theorem witness_FaultLatchRecordsFailingInstruction_fetch : atFirstBadFetch.halted = false ∧
    after atFirstBadFetch (·.halted) = true ∧ 0xFFF ≤ atFirstBadFetch.pc.toNat := by decide

/-- A running state at the last legal fetch address, whose word is `00EE`, on an empty call stack. -/
def atEmptyReturn : State := { State.reset with pc := 0xFFE, mem := [(0xFFF, 0xEE)] }

theorem witness_FaultLatchRecordsFailingInstruction_execute : atEmptyReturn.halted = false ∧
    after atEmptyReturn (·.halted) = true ∧ atEmptyReturn.pc.toNat < 0xFFF := by decide
theorem witness_FaultLatchRecordsFailingInstruction_load :
    ∃ t, hostStep (.loadProgram (List.replicate 3585 0)) State.reset = .next t ∧ t.halted = true :=
  ⟨State.takeFault .loadError 0 0 State.reset, by
    rw [hostStep, hostLoadProgram, if_neg (by decide), if_pos (by rw [List.length_replicate]; decide)], rfl⟩
theorem witness_HaltedStateIsFrozen : haltedState.halted = true ∧ (HostOp.tick ≠ .init ∧ HostOp.tick ≠ .reset) := by decide
theorem witness_InstructionsKeepTheirFootprint : nextIs (exec (.ldMemVx 0xF) (indexAt 0xFF0)) (fun _ => true) = true := by decide
theorem witness_CycleNeverTicksNorTouchesKeys_delay :
    run 0xF215 (withRegs [(2, 0x3C)]) (fun t => t.dt != State.reset.dt) = true := by decide
theorem witness_CycleNeverTicksNorTouchesKeys_sound :
    run 0xF218 (withRegs [(2, 0x3C)]) (fun t => t.st != State.reset.st) = true := by decide
theorem witness_CycleNeverTicksNorTouchesKeys_stalled : stalledState.waitKey = true ∧ after stalledState (·.waitKey) = true := by
  decide

theorem witness_DeadStackSlotsUnobservable :
    State.SameButDeadSlots { State.reset with sp := 1, stack := State.reset.stack.set 0 0x202 }
      { State.reset with sp := 1, stack := (State.reset.stack.set 0 0x202).set 1 0xFFFF } :=
  ⟨rfl, by decide⟩
theorem witness_DeadStackSlotsUnobservable_step :
    after { State.reset with sp := 1, stack := State.reset.stack.set 0 0x202, mem := [(0x201, 0xEE)] } (·.pc == 0x202) = true ∧
    after { State.reset with sp := 1, stack := (State.reset.stack.set 0 0x202).set 1 0xFFFF, mem := [(0x201, 0xEE)] }
      (·.pc == 0x202) = true := by decide

/-- A state at `1FFE` in the last legal fetch address. -/
def atSelfJump : State := { State.reset with pc := 0xFFE, mem := [(0xFFE, 0x1F), (0xFFF, 0xFE)] }

theorem witness_JumpToSelfChangesNothing : atSelfJump.AtSelfJump :=
  ⟨⟨by decide, by decide⟩, 0xFFE, by decide, by decide⟩

/-- A state in the middle of a run: a return address on the call stack, memory written, a sprite drawn. -/
def midRun : State :=
  { withRegs [(3, 0x7F), (0xF, 1)] with
    mem := [(0x100, 0x81), (0x201, 0xEE), (0xFFF, 0xFF)]
    pc := 0x200, i := 0xFFFF, sp := 1, stack := State.reset.stack.set 0 0x1000, disp := lit [(63, 31)] }

theorem witness_StepKeepsInvariant : midRun.Inv where
  memoryCanonical := by decide
  pcBound := by decide
  stackBound := by decide
  latchClear := by decide
  latchSet := by decide
theorem witness_StepKeepsInvariant_step : after midRun (·.pc == 0x1000) = true := by decide
theorem witness_StepKeepsInvariant_halted : haltedState.Inv where
  memoryCanonical := by decide
  pcBound := by decide
  stackBound := by decide
  latchClear := by decide
  latchSet := by decide
theorem witness_SchedulesKeepInvariant :
    nextIs (runSchedule [.tick, .setKeyState 0xF true, .cycle] midRun) (fun t => t.pc == 0x1000 && t.keys == 0x8000) = true := by
  decide

/-- The host's question: a word placed where the next step fetches runs as that step, from reset and from a state that
is halted with its pc beyond memory. -/
theorem test_withFetchWord : run 0x6A55 State.reset (fun t => t.readV 0xA == 0x55) = true ∧
    run 0x6A55 { haltedState with pc := 0x10FE, waitKey := true } (fun t => t.readV 0xA == 0x55 && t.pc == 0x202) = true := by
  decide

end Sys2Proof.Tests
end

section
/-! Footprints: a frame for each update that the laws do not yet cover, the footprint of one update after another,
and O51, that every execute phase stays inside its instruction's footprint. -/

namespace Sys2Proof.Machine

/-! ### Composing frames -/

/-- What two updates in a row may change: whatever either of them may. -/
def Footprint.union (f g : Footprint) : Footprint where
  regs := f.regs ++ g.regs
  bytes := f.bytes ++ g.bytes
  index := f.index || g.index
  pc := f.pc || g.pc
  delay := f.delay || g.delay
  sound := f.sound || g.sound
  stack := f.stack || g.stack
  display := f.display || g.display
  wait := f.wait || g.wait
  random := f.random || g.random
  latch := f.latch || g.latch

/-- `f`, and the fault latch besides: the footprint of an instruction that may raise a fatal condition (R192). -/
def Footprint.withLatch (f : Footprint) : Footprint := { f with latch := true }

theorem Frame.trans {f g : Footprint} {s t u : State} (hf : Frame f s t) (hg : Frame g t u) :
    Frame (f.union g) s u := by
  constructor <;> simp +contextual [Footprint.union, hf.params, hg.params, hf.keys, hg.keys, hf.regs, hg.regs,
    hf.memory, hg.memory, hf.index, hg.index, hf.pc, hg.pc, hf.delay, hg.delay, hf.sound, hg.sound, hf.stack,
    hg.stack, hf.display, hg.display, hf.wait, hg.wait, hf.random, hg.random, hf.latch, hg.latch]

/-- An instruction that may raise a fatal condition and does not. -/
theorem Frame.withLatch {f : Footprint} {s t : State} (h : Frame f s t) : Frame f.withLatch s t :=
  { h with latch := nofun }

/-- An instruction that raises a fatal condition writes nothing else, whatever it writes when it completes (R193). -/
theorem frame_executeFault_withLatch (f : Footprint) (s : State) (c : Fault) (i : Instr) :
    Frame f.withLatch s (s.executeFault c i) := by
  constructor <;> simp [Footprint.withLatch]

/-! ### The updates of one part of the state -/

theorem frame_setDisplay (s : State) (d : Display) : Frame { display := true } s { s with disp := d } := by
  constructor <;> simp [State.readV, State.readByte]

theorem frame_setIndex (s : State) (w : Word) : Frame { index := true } s { s with i := w } := by
  constructor <;> simp [State.readV, State.readByte]

theorem frame_setDelay (s : State) (b : Byte) : Frame { delay := true } s { s with dt := b } := by
  constructor <;> simp [State.readV, State.readByte]

theorem frame_setSound (s : State) (b : Byte) : Frame { sound := true } s { s with st := b } := by
  constructor <;> simp [State.readV, State.readByte]

theorem frame_setWait (s : State) (x : Reg) :
    Frame { wait := true } s { s with waitKey := true, keyTarget := x } := by
  constructor <;> simp [State.readV, State.readByte]

theorem frame_randomByte (s : State) : Frame { random := true } s s.randomByte.2 := by
  constructor <;> simp [State.randomByte, State.readV, State.readByte]

theorem frame_push {s t : State} {w : Word} (h : s.push w = some t) : Frame { stack := true } s t := by
  obtain ⟨_, rfl⟩ := State.push_eq_some h
  constructor <;> simp [State.readV, State.readByte]

theorem frame_pop {s t : State} {w : Word} (h : s.pop = some (w, t)) : Frame { stack := true } s t := by
  obtain ⟨_, _, rfl⟩ := State.pop_eq_some h
  constructor <;> simp [State.readV, State.readByte]

theorem State.length_of_loadBytes {s : State} {a n : Nat} {bs : List Byte} (h : s.loadBytes a n = some bs) :
    bs.length = n := by
  rcases s.loadBytes_cases a n with ⟨he, _⟩ | ⟨he, _⟩
  · cases he.symm.trans h
    exact memReadBytes_length ..
  · cases he.symm.trans h

theorem frame_writeRegs (s : State) {x : Reg} {bs : List Byte} (h : bs.length = x.toNat + 1) :
    Frame { regs := regsUpTo x } s (s.writeRegs bs) := by
  constructor <;> simp
  intro r hr
  rw [mem_regsUpTo] at hr
  rw [State.readV_writeRegs, dif_neg (by omega)]

/-! ### Every execute phase -/

/-- The frame of every execute phase (R95): each arm is one of the updates above, one after another, or the raising of
a fatal condition. -/
theorem exec_frame {i : Instr} {s t : State} (h : exec i s = .next t) : Frame (footprint i s) s t := by
  cases i
  case cls => cases h; exact frame_setDisplay ..
  case sys => cases h; exact Frame.refl ..
  case ret =>
    simp only [exec, execRet] at h
    split at h <;> cases h
    · rename_i hpop
      exact ((frame_pop hpop).trans (frame_jumpTo ..)).withLatch
    · exact frame_executeFault_withLatch { pc := true, stack := true } ..
  case call =>
    simp only [exec, execCall] at h
    split at h <;> cases h
    · rename_i hpush
      exact ((frame_push hpush).trans (frame_jumpTo ..)).withLatch
    · exact frame_executeFault_withLatch { pc := true, stack := true } ..
  case jp | jpV0 => cases h; exact frame_jumpTo ..
  case seImm | sneImm | seReg | sneReg => cases h; exact frame_skipIf ..
  case skp | sknp =>
    simp only [exec, execSkp, execSknp] at h
    split at h <;> cases h
    · exact (frame_skipIf ..).withLatch
    · exact frame_executeFault_withLatch { pc := true } ..
  case ldImm | addImm | ldReg | orReg | andReg | xorReg | ldVxDt => cases h; exact frame_writeV ..
  case addReg => cases h; exact frame_writeResultThenFlag ..
  case subReg | shr | subnReg | shl => cases h; exact frame_writeFlagThenResult ..
  case rnd => cases h; exact (frame_randomByte s).trans (frame_writeV ..)
  case ldI | addIVx | ldFVx => cases h; exact frame_setIndex ..
  case drw =>
    simp only [exec, execDrw] at h
    split at h <;> cases h
    · exact ((frame_setDisplay s _).trans (frame_writeV ..)).withLatch
    · exact frame_executeFault_withLatch { regs := [regF], display := true } ..
  case ldVxK => cases h; exact frame_setWait ..
  case ldDtVx => cases h; exact frame_setDelay ..
  case ldStVx => cases h; exact frame_setSound ..
  case ldBVx =>
    simp only [exec, execLdBVx] at h
    split at h <;> cases h
    · rename_i hstore
      exact (frame_storeBytes hstore).withLatch
    · exact frame_executeFault_withLatch { bytes := addressesFrom s.base 3 } ..
  case ldMemVx x =>
    simp only [exec, execLdMemVx] at h
    split at h <;> cases h
    · rename_i hstore
      have hframe := (frame_storeBytes hstore).withLatch
      rwa [State.regsThrough_length] at hframe
    · exact frame_executeFault_withLatch { bytes := addressesFrom s.base (x.toNat + 1) } ..
  case ldVxMem x =>
    simp only [exec, execLdVxMem] at h
    split at h <;> cases h
    · rename_i hload
      exact (frame_writeRegs s (State.length_of_loadBytes hload)).withLatch
    · exact frame_executeFault_withLatch { regs := regsUpTo x } ..

/-- Settles O51: the frame of every execute phase, instruction by instruction. -/
theorem instructionsKeepTheirFootprint : Obligations.InstructionsKeepTheirFootprint :=
  fun _ _ _ h => exec_frame h

end Sys2Proof.Machine
end

section
/-! Encoding: decode after encode (O2), encode after decode (O3), the illegal words (O4), the rows of the opcode map
(O5) and the sample words (O1). A word is taken apart into the fields of its format (R72), never into bits. -/

namespace Sys2Proof

open Laws.TableRow (fieldOp_of_row fields_of_xy_row fields_of_x_row encode_matches_row)

variable {w : Word}

/-! ### A word of which the primary opcode is known, and the last field where a row fixes it -/

theorem word_of_nnn_op {c : BitVec 4} (hop : fieldOp w = c) : c ++ fieldNNN w = w := by
  rw [← hop, word_of_nnn]

theorem word_of_xkk_op {c : BitVec 4} (hop : fieldOp w = c) : c ++ fieldX w ++ fieldKK w = w := by
  rw [← hop, word_of_xkk]

theorem word_of_xyn_op {c : BitVec 4} (hop : fieldOp w = c) : c ++ fieldX w ++ fieldY w ++ fieldN w = w := by
  rw [← hop, word_of_xyn]

theorem word_of_x_fixed {c : BitVec 4} {kk : Byte} (hop : fieldOp w = c) (hkk : fieldKK w = kk) :
    c ++ fieldX w ++ kk = w := by
  rw [← hkk, word_of_xkk_op hop]

theorem word_of_xy_fixed {c n : BitVec 4} (hop : fieldOp w = c) (hn : fieldN w = n) :
    c ++ fieldX w ++ fieldY w ++ n = w := by
  rw [← hn, word_of_xyn_op hop]

/-! ### The families with a decoder of their own -/

theorem decodeWord_0 (hop : fieldOp w = 0x0#4) : decodeWord w = decode0 w := by simp [decodeWord, hop]

theorem decodeWord_5 (hop : fieldOp w = 0x5#4) : decodeWord w = decode5 w := by simp [decodeWord, hop]

theorem decodeWord_8 (hop : fieldOp w = 0x8#4) : decodeWord w = decode8 w := by simp [decodeWord, hop]

theorem decodeWord_9 (hop : fieldOp w = 0x9#4) : decodeWord w = decode9 w := by simp [decodeWord, hop]

theorem decodeWord_E (hop : fieldOp w = 0xE#4) : decodeWord w = decodeE w := by simp [decodeWord, hop]

theorem eq_word0_iff (hop : fieldOp w = 0x0#4) (nnn : Addr12) : w = 0x0#4 ++ nnn ↔ fieldNNN w = nnn := by
  constructor
  · intro hw
    rw [hw, fieldNNN_nnn]
  · intro hnnn
    rw [← hnnn, word_of_nnn_op hop]

/-- Family 0 in terms of `nnn`, as the check of `Instr.wellFormed` speaks of it (R75). -/
theorem decode0_of_op (hop : fieldOp w = 0x0#4) : decode0 w =
    if fieldNNN w = 0x0E0#12 then .ok .cls
    else if fieldNNN w = 0x0EE#12 then .ok .ret
    else .ok (.sys (fieldNNN w)) := by
  simp only [decode0, ← eq_word0_iff hop]
  rfl

/-! ### Decode after encode -/

/-- The word of every well-formed instruction decodes to it: each arm of the decoder reads back the fields of the format
the encoder wrote (R72, R74, R75). -/
theorem decodeWord_encode {i : Instr} (hwf : i.wellFormed = true) : decodeWord (encode i) = .ok i := by
  cases i
  case cls | ret => rfl
  case sys nnn =>
    obtain ⟨hcls, hret⟩ : nnn ≠ 0x0E0#12 ∧ nnn ≠ 0x0EE#12 := by simpa [Instr.wellFormed] using hwf
    simp [encode, decodeWord_0, decode0_of_op, hcls, hret]
  case jp | call | ldI | jpV0 => simp [encode, decodeWord]
  case seImm | sneImm | ldImm | addImm | rnd => simp [encode, decodeWord]
  case drw => simp [encode, decodeWord]
  case seReg => simp [encode, decodeWord_5, decode5]
  case ldReg | orReg | andReg | xorReg | addReg | subReg | shr | subnReg | shl =>
    simp [encode, decodeWord_8, decode8]
  case sneReg => simp [encode, decodeWord_9, decode9]
  case skp | sknp => simp [encode, decodeWord_E, decodeE]
  case ldVxDt | ldVxK | ldDtVx | ldStVx | addIVx | ldFVx | ldBVx | ldMemVx | ldVxMem =>
    simp [encode, decodeWord_F, decodeF]

/-- Settles O2: the two big-endian bytes join to the instruction's word (R52), which decodes to the instruction. -/
theorem decodeOfEncodedBytes : Obligations.DecodeOfEncodedBytes := by
  intro i rest hwf
  simp [encodeBytes, decode, decodeWord_encode hwf]

/-! ### Encode after decode -/

/-- `w` is the word of the well-formed instruction `i`. -/
def IsWordOf (w : Word) (i : Instr) : Prop := encode i = w ∧ i.wellFormed = true

theorem decode0_ok (hop : fieldOp w = 0x0#4) : ∃ i, decode0 w = .ok i ∧ IsWordOf w i := by
  rw [decode0_of_op hop]
  split
  next hcls => exact ⟨.cls, rfl, ((eq_word0_iff hop _).mpr hcls).symm, rfl⟩
  next hcls =>
    split
    next hret => exact ⟨.ret, rfl, ((eq_word0_iff hop _).mpr hret).symm, rfl⟩
    next hret => exact ⟨.sys _, rfl, word_of_nnn_op hop, by simp [Instr.wellFormed, hcls, hret]⟩

variable {i : Instr}

theorem isWordOf_of_decode5 (hop : fieldOp w = 0x5#4) (h : decode5 w = .ok i) : IsWordOf w i := by
  unfold decode5 at h
  split at h <;> cases h
  next hn => exact ⟨word_of_xy_fixed hop hn, rfl⟩

theorem isWordOf_of_decode8 (hop : fieldOp w = 0x8#4) (h : decode8 w = .ok i) : IsWordOf w i := by
  unfold decode8 at h
  split at h <;> cases h
  all_goals next hn => exact ⟨word_of_xy_fixed hop hn, rfl⟩

theorem isWordOf_of_decode9 (hop : fieldOp w = 0x9#4) (h : decode9 w = .ok i) : IsWordOf w i := by
  unfold decode9 at h
  split at h <;> cases h
  next hn => exact ⟨word_of_xy_fixed hop hn, rfl⟩

theorem isWordOf_of_decodeE (hop : fieldOp w = 0xE#4) (h : decodeE w = .ok i) : IsWordOf w i := by
  unfold decodeE at h
  split at h <;> cases h
  all_goals next hkk => exact ⟨word_of_x_fixed hop hkk, rfl⟩

theorem isWordOf_of_decodeF (hop : fieldOp w = 0xF#4) (h : decodeF w = .ok i) : IsWordOf w i := by
  unfold decodeF at h
  split at h <;> cases h
  all_goals next hkk => exact ⟨word_of_x_fixed hop hkk, rfl⟩

/-- Eleven of the families have no illegal word (R75, R76). -/
theorem decodeWord_ok_of_op (hlegal : fieldOp w ∉ [0x5#4, 0x8#4, 0x9#4, 0xE#4, 0xF#4]) :
    ∃ i, decodeWord w = .ok i ∧ IsWordOf w i := by
  unfold decodeWord
  split
  next hop => exact decode0_ok hop
  next hop => exact ⟨_, rfl, word_of_nnn_op hop, rfl⟩
  next hop => exact ⟨_, rfl, word_of_nnn_op hop, rfl⟩
  next hop => exact ⟨_, rfl, word_of_xkk_op hop, rfl⟩
  next hop => exact ⟨_, rfl, word_of_xkk_op hop, rfl⟩
  next hop => simp [hop] at hlegal
  next hop => exact ⟨_, rfl, word_of_xkk_op hop, rfl⟩
  next hop => exact ⟨_, rfl, word_of_xkk_op hop, rfl⟩
  next hop => simp [hop] at hlegal
  next hop => simp [hop] at hlegal
  next hop => exact ⟨_, rfl, word_of_nnn_op hop, rfl⟩
  next hop => exact ⟨_, rfl, word_of_nnn_op hop, rfl⟩
  next hop => exact ⟨_, rfl, word_of_xkk_op hop, rfl⟩
  next hop => exact ⟨_, rfl, word_of_xyn_op hop, rfl⟩
  next hop => simp [hop] at hlegal
  next =>
    have hop := nibble_cases (fieldOp w)
    simp_all

/-- Everything the primary opcode decides (R75): that the word is legal, or which of five decoders says whether it is. -/
theorem decodeWord_cases (w : Word) :
    (fieldOp w ∉ [0x5#4, 0x8#4, 0x9#4, 0xE#4, 0xF#4] ∧ ∃ i, decodeWord w = .ok i ∧ IsWordOf w i) ∨
    (fieldOp w = 0x5#4 ∧ decodeWord w = decode5 w) ∨
    (fieldOp w = 0x8#4 ∧ decodeWord w = decode8 w) ∨
    (fieldOp w = 0x9#4 ∧ decodeWord w = decode9 w) ∨
    (fieldOp w = 0xE#4 ∧ decodeWord w = decodeE w) ∨
    (fieldOp w = 0xF#4 ∧ decodeWord w = decodeF w) := by
  by_cases hmem : fieldOp w ∈ [0x5#4, 0x8#4, 0x9#4, 0xE#4, 0xF#4]
  · simp only [List.mem_cons, List.not_mem_nil, or_false] at hmem
    rcases hmem with hop | hop | hop | hop | hop
    · exact .inr (.inl ⟨hop, decodeWord_5 hop⟩)
    · exact .inr (.inr (.inl ⟨hop, decodeWord_8 hop⟩))
    · exact .inr (.inr (.inr (.inl ⟨hop, decodeWord_9 hop⟩)))
    · exact .inr (.inr (.inr (.inr (.inl ⟨hop, decodeWord_E hop⟩))))
    · exact .inr (.inr (.inr (.inr (.inr ⟨hop, decodeWord_F hop⟩))))
  · exact .inl ⟨hmem, decodeWord_ok_of_op hmem⟩

/-- Settles O3: in each family the decoded fields rebuild the word they were read from. -/
theorem encodeOfDecodedWord : Obligations.EncodeOfDecodedWord := by
  intro w i h
  rcases decodeWord_cases w with
    ⟨_, j, hj, hword⟩ | ⟨hop, e⟩ | ⟨hop, e⟩ | ⟨hop, e⟩ | ⟨hop, e⟩ | ⟨hop, e⟩
  · cases hj.symm.trans h
    exact hword
  · exact isWordOf_of_decode5 hop (e ▸ h)
  · exact isWordOf_of_decode8 hop (e ▸ h)
  · exact isWordOf_of_decode9 hop (e ▸ h)
  · exact isWordOf_of_decodeE hop (e ▸ h)
  · exact isWordOf_of_decodeF hop (e ▸ h)

/-! ### The illegal words -/

theorem decode5_rejects_iff : (∃ r, decode5 w = .error r) ↔ fieldN w ≠ 0x0#4 := by
  unfold decode5
  split <;> simp [*]

theorem decode8_rejects_iff : (∃ r, decode8 w = .error r) ↔
    fieldN w ∈ [0x8#4, 0x9#4, 0xA#4, 0xB#4, 0xC#4, 0xD#4, 0xF#4] := by
  rcases nibble_cases (fieldN w) with
    hn | hn | hn | hn | hn | hn | hn | hn | hn | hn | hn | hn | hn | hn | hn | hn <;> simp [decode8, hn]

theorem decode9_rejects_iff : (∃ r, decode9 w = .error r) ↔ fieldN w ≠ 0x0#4 := by
  unfold decode9
  split <;> simp [*]

theorem decodeE_rejects_iff : (∃ r, decodeE w = .error r) ↔ fieldKK w ∉ [0x9E#8, 0xA1#8] := by
  unfold decodeE
  split <;> simp_all

theorem decodeF_rejects_iff : (∃ r, decodeF w = .error r) ↔
    fieldKK w ∉ [0x07#8, 0x0A#8, 0x15#8, 0x18#8, 0x1E#8, 0x29#8, 0x33#8, 0x55#8, 0x65#8] := by
  unfold decodeF
  split <;> simp_all

/-- Settles O4: the five families of R76 are what the five decoders of `decodeWord_cases` reject. -/
theorem illegalWordsExactly : Obligations.IllegalWordsExactly := by
  intro w
  simp only [← fieldOp.eq_def, ← fieldN.eq_def, ← fieldKK.eq_def]
  rcases decodeWord_cases w with
    ⟨hop, i, hi, _⟩ | ⟨hop, e⟩ | ⟨hop, e⟩ | ⟨hop, e⟩ | ⟨hop, e⟩ | ⟨hop, e⟩
  · simp only [List.mem_cons, List.not_mem_nil, or_false, not_or] at hop
    simp [hi, hop]
  · simp [e, hop, decode5_rejects_iff]
  · simp [e, hop, decode8_rejects_iff]
  · simp [e, hop, decode9_rejects_iff]
  · simp [e, hop, decodeE_rejects_iff]
  · simp [e, hop, decodeF_rejects_iff]

/-! ### The rows of the opcode map -/

/-- `i` and `j` are of one row of the opcode map (R74). -/
def SameRow (i j : Instr) : Prop := tableMask i = tableMask j ∧ tableMatch i = tableMatch j

/-- Whatever matches a row other than SYS decodes to an instruction of that row: the row fixes every field that the
decoder branches on (R74, R75). -/
theorem decodeWord_of_row {j : Instr} (hsys : ∀ nnn, j ≠ .sys nnn) (h : w &&& tableMask j = tableMatch j) :
    ∃ k, decodeWord w = .ok k ∧ SameRow j k := by
  cases j <;> dsimp only [tableMask, tableMatch] at h
  case sys nnn => exact absurd rfl (hsys nnn)
  case cls | ret =>
    obtain rfl := BitVec.and_allOnes.symm.trans h
    exact ⟨_, rfl, rfl, rfl⟩
  case jp | call | ldI | jpV0 | seImm | sneImm | ldImm | addImm | rnd | drw =>
    have hop := fieldOp_of_row h
    unfold decodeWord
    rw [hop]
    exact ⟨_, rfl, rfl, rfl⟩
  case seReg =>
    obtain ⟨hop, hn⟩ := fields_of_xy_row h
    rw [decodeWord_5 hop, decode5, hn]
    exact ⟨_, rfl, rfl, rfl⟩
  case ldReg | orReg | andReg | xorReg | addReg | subReg | shr | subnReg | shl =>
    obtain ⟨hop, hn⟩ := fields_of_xy_row h
    rw [decodeWord_8 hop, decode8, hn]
    exact ⟨_, rfl, rfl, rfl⟩
  case sneReg =>
    obtain ⟨hop, hn⟩ := fields_of_xy_row h
    rw [decodeWord_9 hop, decode9, hn]
    exact ⟨_, rfl, rfl, rfl⟩
  case skp | sknp =>
    obtain ⟨hop, hkk⟩ := fields_of_x_row h
    rw [decodeWord_E hop, decodeE, hkk]
    exact ⟨_, rfl, rfl, rfl⟩
  case ldVxDt | ldVxK | ldDtVx | ldStVx | addIVx | ldFVx | ldBVx | ldMemVx | ldVxMem =>
    obtain ⟨hop, hkk⟩ := fields_of_x_row h
    rw [decodeWord_F hop, decodeF, hkk]
    exact ⟨_, rfl, rfl, rfl⟩

/-- Whatever matches the row of SYS decodes to CLS, RET or SYS (R75). -/
theorem decodeWord_of_sysRow {nnn : Addr12} (h : w &&& tableMask (.sys nnn) = tableMatch (.sys nnn))
    (hi : decodeWord w = .ok i) : i = .cls ∨ i = .ret ∨ SameRow (.sys nnn) i := by
  have hop : fieldOp w = 0x0#4 := fieldOp_of_row (v := 0x0000#16) h
  rw [decodeWord_0 hop, decode0] at hi
  split at hi
  · exact .inl (Except.ok.inj hi).symm
  · split at hi
    · exact .inr (.inl (Except.ok.inj hi).symm)
    · cases hi
      exact .inr (.inr ⟨rfl, rfl⟩)

/-- Settles O5: the decoded instruction's word matches its own row, and decoding, being a function, answers one row. -/
theorem decodeFollowsOpcodeMap : Obligations.DecodeFollowsOpcodeMap := by
  intro w i h
  refine ⟨(encodeOfDecodedWord w i h).1 ▸ encode_matches_row i, fun j hj => ?_⟩
  by_cases hsys : ∃ nnn, j = .sys nnn
  · obtain ⟨nnn, rfl⟩ := hsys
    rcases decodeWord_of_sysRow hj h with hcls | hret | hrow
    · exact .inr ⟨.inl hcls, nnn, rfl⟩
    · exact .inr ⟨.inr hret, nnn, rfl⟩
    · exact .inl hrow
  · obtain ⟨k, hk, hrow⟩ := decodeWord_of_row (not_exists.mp hsys) hj
    cases hk.symm.trans h
    exact .inl hrow

/-! ### Sample words -/

/-- Settles O1: the decoder evaluated on each word. -/
theorem sampleWordsDecode : Obligations.SampleWordsDecode :=
  ⟨rfl, rfl, rfl, rfl, rfl, rfl, rfl, rfl, rfl, rfl, rfl, rfl, rfl, rfl, rfl, rfl, rfl, rfl⟩

end Sys2Proof
end

section
/-! DecodeError (O8): which fatal conditions a cycle raises, told apart by their codes. -/

namespace Sys2Proof.Machine

theorem Fault.eq_decodeError_of_code {f : Fault} (h : f.code = Fault.decodeError.code) : f = .decodeError := by
  cases f
  case decodeError => rfl
  all_goals cases h

theorem frame_decodeFault (s : State) (w : Word) : Frame { latch := true } s (s.decodeFault w) := by
  constructor <;> simp

theorem raised_decodeFault (s : State) (w : Word) : Raised .decodeError s (s.decodeFault w) :=
  ⟨rfl, rfl, frame_decodeFault s w⟩

/-- The cycle that fetches an illegal word takes the fault from the advanced pc (R93, R189). -/
theorem step_of_illegal {s : State} {w : Word} {r : Reject} (hhalted : s.halted = false) (hwait : s.waitKey = false)
    (hfetch : s.fetchWord = some w) (hr : decodeWord w = .error r) : step s = .next (s.advancePc.decodeFault w) := by
  simp [step, hhalted, hwait, hfetch, hr]

/-- A fetch that is admitted reads two bytes below 0x1000 (R52, R93). -/
theorem State.fetchWord_eq_some {s : State} {w : Word} (h : s.fetchWord = some w) :
    s.pc.toNat < 0xFFF ∧ w = wordOfBytes (s.readByte s.pc.toNat) (s.readByte (s.pc.toNat + 1)) := by
  by_cases hpc : s.pc.toNat < 0xFFF
  · exact ⟨hpc, Option.some.inj (h.symm.trans (State.fetchWord_of_lt hpc))⟩
  · cases (State.fetchWord_of_ge (by omega)).symm.trans h

/-- The execute phase of a core that runs does not raise DecodeError (R185, R189). -/
theorem exec_faultCode_ne_decodeError {i : Instr} {s t : State} (hs : s.halted = false) (h : exec i s = .next t)
    (ht : t.halted = true) : t.faultCode ≠ Fault.decodeError.code := by
  rcases exec_latch h with ⟨f, rfl, _, hf⟩ | ⟨hhalted, _⟩
  · exact fun hcode => hf (Fault.eq_decodeError_of_code hcode)
  · cases ht.symm.trans (hhalted.trans hs)

/-- A running core that a cycle halts with DecodeError has fetched an illegal word. -/
theorem illegal_of_step_decodeError {s t : State} (hs : s.halted = false) (h : step s = .next t)
    (ht : t.halted = true) (hcode : t.faultCode = Fault.decodeError.code) :
    ∃ w r, s.fetchWord = some w ∧ decodeWord w = .error r := by
  rcases step_cases s with ⟨_, e⟩ | ⟨_, _, ⟨_, e⟩ | ⟨w, hw, ⟨r, hr, _⟩ | ⟨i, _, e⟩⟩⟩
  · cases e.symm.trans h
    cases hs.symm.trans ht
  · cases e.symm.trans h
    cases hcode
  · exact ⟨w, r, hw, hr⟩
  · exact absurd hcode (exec_faultCode_ne_decodeError (s := s.advancePc) hs (e.symm.trans h) ht)

/-- Settles O8: the fetch of an illegal word takes `decodeFault`; every other outcome of a cycle leaves the core running
or has another code. -/
theorem illegalWordRaisesDecodeError : Obligations.IllegalWordRaisesDecodeError := by
  constructor
  · intro s r hhalted hwait hpc hr
    exact ⟨_, step_of_illegal hhalted hwait (State.fetchWord_of_lt hpc) hr, raised_decodeFault ..⟩
  · intro s t hs h ht hcode
    obtain ⟨w, r, hw, hr⟩ := illegal_of_step_decodeError hs h ht hcode
    obtain ⟨hpc, rfl⟩ := State.fetchWord_eq_some hw
    exact ⟨hpc, r, hr⟩

end Sys2Proof.Machine
end

section
/-! The cycle: which instruction a running core executes (O6), that a halted or stalled core does nothing (O9), and that
every execute phase and every cycle answers a next state (O10). -/

namespace Sys2Proof.Machine

/-- The cycle that fetches a legal word is the execute phase of its instruction, from the advanced pc (R93, R94, R95). -/
theorem step_of_legal {s : State} {w : Word} {i : Instr} (hhalted : s.halted = false) (hwait : s.waitKey = false)
    (hfetch : s.fetchWord = some w) (hi : decodeWord w = .ok i) : step s = exec i s.advancePc := by
  simp [step, hhalted, hwait, hfetch, hi]

/-- Settles O6: below 0xFFF the fetch is admitted and reads the two bytes at pc. -/
theorem stepRunsDecodedInstruction : Obligations.StepRunsDecodedInstruction :=
  fun _ _ hhalted hwait hpc hi => step_of_legal hhalted hwait (State.fetchWord_of_lt hpc) hi

/-- Settles O9: a cycle that gets as far as the fetch is one of a core neither halted nor stalled. -/
theorem haltedOrStalledCycleDoesNothing : Obligations.HaltedOrStalledCycleDoesNothing := by
  intro s hstopped
  rcases step_cases s with ⟨_, hstep⟩ | ⟨hhalted, hwait, _⟩
  · exact hstep
  · simp [hhalted, hwait] at hstopped

/-- Every execute phase answers a next state. Eight instructions branch on whether they complete or raise a fatal
condition, which is a next state too (R192); every other one is a single update. -/
theorem exec_answers (i : Instr) (s : State) : ∃ t, exec i s = .next t := by
  cases i
  case ret | call | drw | ldBVx | ldMemVx | ldVxMem | skp | sknp =>
    simp only [exec, execRet, execCall, execDrw, execLdBVx, execLdMemVx, execLdVxMem, execSkp, execSknp]
    split <;> exact ⟨_, rfl⟩
  all_goals exact ⟨_, rfl⟩

/-- Every cycle answers a next state: the same one while halted or stalled, one that takes the fault where it cannot fetch
or decode, and otherwise what the execute phase answers (R90, R192). -/
theorem step_answers (s : State) : ∃ t, step s = .next t := by
  rcases step_cases s with ⟨_, hstep⟩ | ⟨_, _, ⟨_, hstep⟩ | ⟨w, _, ⟨r, _, hstep⟩ | ⟨i, _, hstep⟩⟩⟩
  · exact ⟨_, hstep⟩
  · exact ⟨_, hstep⟩
  · exact ⟨_, hstep⟩
  · exact hstep ▸ exec_answers i s.advancePc

/-- Settles O10: an execute phase by cases on the instruction, a cycle by cases on how far it gets. -/
theorem everyCycleAnswers : Obligations.EveryCycleAnswers := ⟨exec_answers, step_answers⟩

end Sys2Proof.Machine
end

section
/-! Control flow (41_control_flow.md): what the call stack gives each instruction (O12, O13, O14), jumps (O16), skips
(O17, O18) and SYS (O11). -/

namespace Sys2Proof.Machine

variable {s t : State} {w : Word}

/-! ### The call stack -/

/-- A push writes the slot at sp and no other (R103). -/
theorem State.push_stack_of_ne (h : s.push w = some t) {k : Nat} (hk : k < 16) (hne : k ≠ s.sp.val) :
    t.stack[k]'hk = s.stack[k]'hk := by
  obtain ⟨hroom, rfl⟩ := State.push_eq_some h
  exact Vector.getElem_set_ne hroom hk hne.symm

/-- What was pushed is popped, whatever jump comes between, and only the stack then differs (R101, R103). -/
theorem State.pop_jumpTo_of_push (h : s.push w = some t) (target : Word) :
    (t.jumpTo target).pop = some (w, State.jumpTo { s with stack := t.stack } target) := by
  obtain ⟨hroom, rfl⟩ := State.push_eq_some h
  simp [State.pop, State.jumpTo]

/-! ### Targets -/

theorem zext16_toNat (nnn : Addr12) : (zext16 nnn).toNat = nnn.toNat :=
  BitVec.toNat_setWidth_of_le (by decide)

/-- `nnn + V0` is at most 0x10FE, so the target is never reduced (R108). -/
theorem offsetTarget_toNat (nnn : Addr12) (b : Byte) : (offsetTarget nnn b).toNat = nnn.toNat + b.toNat := by
  have hnnn := nnn.isLt
  have hb := b.isLt
  rw [offsetTarget, BitVec.toNat_ofNat, Nat.mod_eq_of_lt (by omega)]

/-! ### CALL and RET -/

theorem exec_call_of_push (nnn : Addr12) (h : s.push s.pc = some t) :
    exec (.call nnn) s = .next (t.jumpTo (zext16 nnn)) := by
  simp [exec, execCall, h]

theorem exec_call_of_full (nnn : Addr12) (h : s.sp.val = 16) :
    exec (.call nnn) s = .next (s.executeFault .stackOverflow (.call nnn)) := by
  simp [exec, execCall, State.push_of_full s.pc h]

theorem exec_ret_of_pop (h : s.pop = some (w, t)) : exec .ret s = .next (t.jumpTo w) := by
  simp [exec, execRet, h]

theorem exec_ret_of_empty (h : s.sp.val = 0) :
    exec .ret s = .next (s.executeFault .stackUnderflow .ret) := by
  simp [exec, execRet, State.pop_of_empty h]

theorem raised_executeFault (s : State) (f : Fault) (i : Instr) : Raised f s (s.executeFault f i) :=
  ⟨rfl, rfl, frame_executeFault s f i⟩

/-- Settles O14: the return pops what the call pushed, which was pc, and the push left the slots below sp alone. -/
theorem returnUndoesCall : Obligations.ReturnUndoesCall := by
  intro nnn s hroom
  have hpush := State.push_of_lt s.pc hroom
  exact ⟨_, _, exec_call_of_push nnn hpush, exec_ret_of_pop (State.pop_jumpTo_of_push hpush _), rfl,
    fun k hk hlt => State.push_stack_of_ne hpush hk (Nat.ne_of_lt hlt)⟩

/-- Settles O12: with room on the stack the call is a push and a jump, on a full stack it takes the fault. -/
theorem callPushesReturnAddress : Obligations.CallPushesReturnAddress := by
  intro nnn s
  refine ⟨decodeWord_encode (i := .call nnn) rfl, fun hroom => ?_, fun hfull => ?_⟩
  · have hpush := State.push_of_lt s.pc hroom
    exact ⟨_, exec_call_of_push nnn hpush, zext16_toNat nnn, rfl, Vector.getElem_set_self _,
      fun k hk hne => State.push_stack_of_ne hpush hk hne, (frame_push hpush).trans (frame_jumpTo ..)⟩
  · exact ⟨_, exec_call_of_full nnn hfull, raised_executeFault ..⟩

/-- Settles O13: with sp above 0 the return is a pop and a jump, on an empty stack it takes the fault. -/
theorem retPopsReturnAddress : Obligations.RetPopsReturnAddress := by
  refine ⟨decodeWord_encode (i := .ret) rfl, fun s => ⟨fun hpos => ?_, fun hempty => ?_⟩⟩
  · have hpop := State.pop_of_pos hpos
    exact ⟨_, exec_ret_of_pop hpop, Nat.sub_add_cancel hpos, rfl, rfl, (frame_pop hpop).trans (frame_jumpTo ..)⟩
  · exact ⟨_, exec_ret_of_empty hempty, raised_executeFault ..⟩

/-! ### SYS -/

/-- Settles O11: every `nnn` but the two of CLS and RET is well-formed, and SYS answers the state it was given. -/
theorem sysDoesNothing : Obligations.SysDoesNothing := by
  intro nnn s hcls hret
  have hwf : (Instr.sys nnn).wellFormed = true := by simp [Instr.wellFormed, hcls, hret]
  exact ⟨decodeWord_encode (i := .sys nnn) hwf, rfl⟩

/-! ### Jumps -/

/-- Settles O16: both are one jump, to targets that fit in pc. -/
theorem jumpsSetPc : Obligations.JumpsSetPc := fun nnn s =>
  ⟨decodeWord_encode (i := .jp nnn) rfl, decodeWord_encode (i := .jpV0 nnn) rfl,
    ⟨_, rfl, zext16_toNat nnn, frame_jumpTo ..⟩,
    ⟨_, rfl, offsetTarget_toNat nnn (s.readV 0), frame_jumpTo ..⟩⟩

/-! ### Skips -/

theorem State.skipIf_beq_pc (s : State) (a b : Byte) :
    (s.skipIf (a == b)).pc = if a = b then s.pc + 2 else s.pc := by
  simp only [State.skipIf_pc, beq_iff_eq]

theorem State.skipIf_bne_pc (s : State) (a b : Byte) :
    (s.skipIf (a != b)).pc = if a = b then s.pc else s.pc + 2 := by
  simp only [State.skipIf_pc, bne_iff_ne, ite_not]

/-- Settles O17: both are one skip, on the comparison of the register with the immediate. -/
theorem immediateSkips : Obligations.ImmediateSkips := fun x kk s =>
  ⟨decodeWord_encode (i := .seImm x kk) rfl, decodeWord_encode (i := .sneImm x kk) rfl,
    ⟨_, rfl, s.skipIf_beq_pc .., frame_skipIf ..⟩, ⟨_, rfl, s.skipIf_bne_pc .., frame_skipIf ..⟩⟩

/-- Settles O18: both are one skip, on the comparison of the two registers. -/
theorem registerSkips : Obligations.RegisterSkips := fun x y s =>
  ⟨decodeWord_encode (i := .seReg x y) rfl, decodeWord_encode (i := .sneReg x y) rfl,
    ⟨_, rfl, s.skipIf_beq_pc .., frame_skipIf ..⟩, ⟨_, rfl, s.skipIf_bne_pc .., frame_skipIf ..⟩⟩

end Sys2Proof.Machine
end

section
/-! Loads, arithmetic and logic (42_alu.md): the instructions that write one register and no flag (O19), and the sum
with its carry (O21). -/

namespace Sys2Proof.Machine

variable {i : Instr} {s : State} {x : Reg} {b : Byte}

/-! ### One register and no flag -/

/-- An instruction whose execute phase is one register write completes, leaves its result in the register, and changes
nothing else, VF included unless it is the register written. -/
theorem writesOneRegister_of_exec (h : exec i s = .next (s.writeV x b)) :
    ∃ t, exec i s = .next t ∧ t.readV x = b ∧ Frame { regs := [x] } s t :=
  ⟨_, h, s.readV_writeV_self x b, frame_writeV s x b⟩

/-- Settles O19: each of the five is one register write. -/
theorem loadsAndLogicWriteOneRegister : Obligations.LoadsAndLogicWriteOneRegister := fun x y kk _ =>
  ⟨⟨decodeWord_encode (i := .ldImm x kk) rfl, writesOneRegister_of_exec rfl⟩,
    ⟨decodeWord_encode (i := .ldReg x y) rfl, writesOneRegister_of_exec rfl⟩,
    ⟨decodeWord_encode (i := .orReg x y) rfl, writesOneRegister_of_exec rfl⟩,
    ⟨decodeWord_encode (i := .andReg x y) rfl, writesOneRegister_of_exec rfl⟩,
    ⟨decodeWord_encode (i := .xorReg x y) rfl, writesOneRegister_of_exec rfl⟩⟩

/-! ### Sum and carry -/

theorem wrapSum_toNat (a b : Byte) : (wrapSum a b).toNat = (a.toNat + b.toNat) % 256 :=
  BitVec.toNat_ofNat ..

theorem flagByte_toNat (c : Bool) : (flagByte c).toNat = if c then 1 else 0 := by cases c <;> rfl

theorem carryFlag_toNat (a b : Byte) : (carryFlag a b).toNat = if a.toNat + b.toNat > 255 then 1 else 0 := by
  simp only [carryFlag, flagByte_toNat, decide_eq_true_eq]

/-- Settles O21: the sum is written first and the carry last, so VF holds the carry even when `x` is F, and `Vx` keeps
the sum when it is not. -/
theorem addRegistersSetsCarry : Obligations.AddRegistersSetsCarry := by
  intro x y s
  refine ⟨decodeWord_encode (i := .addReg x y) rfl, _, rfl, fun hx => ?_, ?_, frame_writeResultThenFlag ..⟩
  · rw [State.readV_writeResultThenFlag, if_neg hx, if_pos rfl, wrapSum_toNat]
  · rw [State.readV_writeResultThenFlag, if_pos rfl, carryFlag_toNat]

end Sys2Proof.Machine
end

section
/-! The address register and decimal digits (43_index_memory.md): the three instructions that write I (O26), and the
store of the digits of a register (O27). -/

namespace Sys2Proof.Machine

open Sys2Proof.Config

variable {i : Instr} {s t : State} {w : Word} {x : Reg}

/-! ### The address register -/

/-- An instruction whose execute phase is one write of I completes, leaves in I the value written, and changes nothing
else, VF included. -/
theorem writesIndex_of_exec {n : Nat} (h : exec i s = .next { s with i := w }) (hw : w.toNat = n) :
    ∃ t, exec i s = .next t ∧ t.i.toNat = n ∧ Frame { index := true } s t :=
  ⟨_, h, hw, frame_setIndex s w⟩

theorem indexSum_toNat (a : Word) (b : Byte) : (indexSum a b).toNat = (a.toNat + b.toNat) % 2 ^ 16 :=
  BitVec.toNat_ofNat ..

/-- The largest glyph address is 0x5FB, so the product of the unmasked byte is never reduced (R142). -/
theorem glyphAddress_toNat (b : Byte) : (glyphAddress b).toNat = 0x100 + 5 * b.toNat := by
  have hb := b.isLt
  rw [glyphAddress, BitVec.toNat_ofNat, fontBase, Nat.mod_eq_of_lt (by omega)]

/-- Settles O26: each of the three is one write of I. -/
theorem indexRegisterWrites : Obligations.IndexRegisterWrites := fun x nnn s =>
  ⟨⟨decodeWord_encode (i := .ldI nnn) rfl, writesIndex_of_exec rfl (zext16_toNat nnn)⟩,
    ⟨decodeWord_encode (i := .addIVx x) rfl, writesIndex_of_exec rfl (indexSum_toNat s.i (s.readV x))⟩,
    ⟨decodeWord_encode (i := .ldFVx x) rfl, writesIndex_of_exec rfl (glyphAddress_toNat (s.readV x))⟩⟩

/-! ### Decimal digits -/

theorem decimalDigits_length (b : Byte) : (decimalDigits b).length = 3 := rfl

theorem exec_ldBVx_of_store (h : s.storeBytes s.base (decimalDigits (s.readV x)) = some t) :
    exec (.ldBVx x) s = .next t := by
  simp [exec, execLdBVx, h]

theorem exec_ldBVx_of_bad (h : s.storeBytes s.base (decimalDigits (s.readV x)) = none) :
    exec (.ldBVx x) s = .next (s.executeFault .addressError (.ldBVx x)) := by
  simp [exec, execLdBVx, h]

/-- No digit is larger than the byte it is a digit of, so none is reduced (R143). -/
theorem decimalDigits_toNat (b : Byte) :
    (decimalDigits b).map BitVec.toNat = [b.toNat / 100, b.toNat / 10 % 10, b.toNat % 10] := by
  have hdigit : ∀ d ≤ b.toNat, (BitVec.ofNat 8 d).toNat = d := fun d hd =>
    Nat.mod_eq_of_lt (hd.trans_lt b.isLt)
  simp only [decimalDigits, List.map_cons, List.map_nil, hdigit _ (Nat.div_le_self ..), hdigit _ (Nat.mod_le ..),
    hdigit _ ((Nat.mod_le ..).trans (Nat.div_le_self ..))]

/-- The three bytes of a store of digits read as the digits, hundreds first (R60, R143). -/
theorem readByte_of_storeDigits {a : Nat} {b : Byte} (h : s.storeBytes a (decimalDigits b) = some t)
    (hwf : Memory.wf s.params.font s.mem = true) :
    (t.readByte a).toNat = b.toNat / 100 ∧ (t.readByte (a + 1)).toNat = b.toNat / 10 % 10 ∧
      (t.readByte (a + 2)).toNat = b.toNat % 10 := by
  have hread (k : Nat) (hk : k < 3) :
      (t.readByte (a + k)).toNat = [b.toNat / 100, b.toNat / 10 % 10, b.toNat % 10][k] := by
    simp only [← decimalDigits_toNat, List.getElem_map]
    exact congrArg BitVec.toNat (readByte_of_storeBytes h hwf hk)
  exact ⟨hread 0 (by decide), hread 1 (by decide), hread 2 (by decide)⟩

/-- Settles O27: when the three bytes are in memory the instruction is a store of the digits, and it takes the fault when
the last of them is not. -/
theorem decimalDigitsStored : Obligations.DecimalDigitsStored := by
  intro x s
  refine ⟨decodeWord_encode (i := .ldBVx x) rfl, fun hin => ?_, fun hout => ?_⟩
  · have hstore := State.storeBytes_of_ok (s := s) (bs := decimalDigits (s.readV x)) (.inr (Nat.succ_le_succ hin))
    exact ⟨_, exec_ldBVx_of_store hstore, frame_storeBytes hstore, readByte_of_storeDigits hstore⟩
  · exact exec_ldBVx_of_bad (State.storeBytes_of_bad (by simp [decimalDigits_length]) (Nat.succ_lt_succ hout))

end Sys2Proof.Machine
end

section
/-! The display (44_display.md): CLS (O33), and what DRW does in terms of the pixels its sprite covers (O34), from
which follows what a second draw of the sprite does (O35). -/

namespace Sys2Proof.Machine

open Sys2Proof.Config

variable {s : State} {x y : Reg} {n : Nibble} {px py : Nat}

/-- Settles O33: CLS is one write of the display, which it blanks. -/
theorem clearScreen : Obligations.ClearScreen :=
  ⟨decodeWord_encode (i := .cls) rfl, fun s => ⟨_, rfl, pixel_blankDisplay, frame_setDisplay s _⟩⟩

/-! ### The pixels a sprite covers -/

/-- The sprite bytes at I, top row first (R55, R151). -/
def State.spriteRows (s : State) (n : Nibble) : List Byte := memReadBytes s.params.font s.mem s.base n.toNat

@[simp] theorem State.spriteRows_length (s : State) (n : Nibble) : (s.spriteRows n).length = n.toNat :=
  memReadBytes_length ..

@[simp] theorem State.spriteRows_getElem (s : State) (n : Nibble) {r : Nat} (hr : r < (s.spriteRows n).length) :
    (s.spriteRows n)[r] = s.readByte (s.base + r) :=
  memReadBytes_getElem ..

/-- The statements' reading of a sprite is the drawing loop's, up to the wrap of coordinates (R152). -/
theorem State.spriteCovers_mod_iff (s : State) (x0 y0 : Nat) (n : Nibble) (qx qy : Nat) :
    s.SpriteCovers x0 y0 n.toNat (qx % dispW) (qy % dispH) ↔ rowsCover x0 y0 (s.spriteRows n) qx qy := by
  simp only [State.SpriteCovers, rowsCover, rowCovers, State.spriteRows_length, State.spriteRows_getElem,
    Nat.zero_le, Nat.zero_add, true_and, exists_prop]
  constructor
  · rintro ⟨r, k, hr, hcovers⟩
    exact ⟨r, hr, k, hcovers⟩
  · rintro ⟨r, hr, k, hcovers⟩
    exact ⟨r, k, hr, hcovers⟩

theorem State.spriteCovers_iff (s : State) {x0 y0 : Nat} (hpx : px < dispW) (hpy : py < dispH) :
    s.SpriteCovers x0 y0 n.toNat px py ↔ rowsCover x0 y0 (s.spriteRows n) px py := by
  rw [← State.spriteCovers_mod_iff, Nat.mod_eq_of_lt hpx, Nat.mod_eq_of_lt hpy]

theorem State.SpriteCovers.lt_dispW {x0 y0 m : Nat} (h : s.SpriteCovers x0 y0 m px py) : px < dispW := by
  obtain ⟨_, _, _, _, _, rfl, _⟩ := h
  exact Nat.mod_lt _ (by decide)

theorem State.SpriteCovers.lt_dispH {x0 y0 m : Nat} (h : s.SpriteCovers x0 y0 m px py) : py < dispH := by
  obtain ⟨_, _, _, _, _, _, rfl⟩ := h
  exact Nat.mod_lt _ (by decide)

theorem exists_getLsbD_of_ne_zero {b : Byte} (h : b ≠ 0) : ∃ j, j < 8 ∧ b.getLsbD j = true := by
  by_contra hnone
  refine h (BitVec.eq_of_getLsbD_eq fun j hj => ?_)
  simpa using fun hbit => hnone ⟨j, hj, hbit⟩

/-- A sprite with a byte other than 0 covers a pixel: some bit of the byte is 1 (R153). -/
theorem State.exists_spriteCovers {m r : Nat} (x0 y0 : Nat) (hr : r < m) (hbyte : s.readByte (s.base + r) ≠ 0) :
    ∃ px py, s.SpriteCovers x0 y0 m px py := by
  obtain ⟨j, hj, hbit⟩ := exists_getLsbD_of_ne_zero hbyte
  rw [← Nat.sub_sub_self (Nat.le_of_lt_succ hj)] at hbit
  exact ⟨_, _, r, 7 - j, hr, by omega, hbit, rfl, rfl⟩

/-! ### One draw -/

/-- The display after the sprite at I, drawn with its corner at (x0, y0), and whether a lit pixel was turned off
(R151). -/
def State.spriteDrawn (s : State) (x0 y0 : Nat) (n : Nibble) : Display × Bool :=
  drawSprite x0 y0 (s.spriteRows n) s.disp

/-- The model's specification of the drawing loop, for the rows of a `Dxyn`, of which there are at most 15. -/
theorem State.spriteDrawn_spec (s : State) (x0 y0 : Nat) (n : Nibble) :
    (∀ qx qy, rowsCover x0 y0 (s.spriteRows n) qx qy →
        pixel (s.spriteDrawn x0 y0 n).1 qx qy = !pixel s.disp qx qy) ∧
      (∀ qx qy, ¬ rowsCover x0 y0 (s.spriteRows n) qx qy →
        pixel (s.spriteDrawn x0 y0 n).1 qx qy = pixel s.disp qx qy) ∧
      ((s.spriteDrawn x0 y0 n).2 = true ↔
        ∃ qx qy, rowsCover x0 y0 (s.spriteRows n) qx qy ∧ pixel s.disp qx qy = true) := by
  have hn := n.isLt
  exact drawSprite_spec x0 y0 (s.spriteRows n) (by rw [State.spriteRows_length]; omega) s.disp

variable {x0 y0 : Nat}

theorem State.pixel_spriteDrawn_of_covers (h : s.SpriteCovers x0 y0 n.toNat px py) :
    pixel (s.spriteDrawn x0 y0 n).1 px py = !pixel s.disp px py :=
  (s.spriteDrawn_spec x0 y0 n).1 px py ((s.spriteCovers_iff h.lt_dispW h.lt_dispH).mp h)

theorem State.pixel_spriteDrawn_of_not_covers (hpx : px < dispW) (hpy : py < dispH)
    (h : ¬ s.SpriteCovers x0 y0 n.toNat px py) :
    pixel (s.spriteDrawn x0 y0 n).1 px py = pixel s.disp px py :=
  (s.spriteDrawn_spec x0 y0 n).2.1 px py (mt (s.spriteCovers_iff hpx hpy).mpr h)

theorem State.spriteDrawn_collides_iff :
    (s.spriteDrawn x0 y0 n).2 = true ↔
      ∃ px py, s.SpriteCovers x0 y0 n.toNat px py ∧ pixel s.disp px py = true := by
  rw [(s.spriteDrawn_spec x0 y0 n).2.2]
  constructor
  · rintro ⟨qx, qy, hcovers, hlit⟩
    exact ⟨_, _, (s.spriteCovers_mod_iff ..).mpr hcovers, (pixel_mod ..).trans hlit⟩
  · rintro ⟨px, py, hcovers, hlit⟩
    exact ⟨px, py, (s.spriteCovers_iff hcovers.lt_dispW hcovers.lt_dispH).mp hcovers, hlit⟩

/-- `s` with the sprite on its display: memory, I and the registers are those of `s`, so the sprite is the same. -/
def State.afterSprite (s : State) (x0 y0 : Nat) (n : Nibble) : State :=
  { s with disp := (s.spriteDrawn x0 y0 n).1 }

theorem State.spriteCovers_afterSprite {m : Nat} :
    (s.afterSprite x0 y0 n).SpriteCovers x0 y0 m px py ↔ s.SpriteCovers x0 y0 m px py :=
  Iff.rfl

/-- Putting the registers back after a draw undoes its write of VF. -/
theorem State.afterSprite_restoreRegs (s : State) (x0 y0 : Nat) (n : Nibble) (b : Byte) :
    { (s.afterSprite x0 y0 n).writeV regF b with v := s.v } = s.afterSprite x0 y0 n :=
  rfl

theorem frame_afterSprite_writeV (s : State) (x0 y0 : Nat) (n : Nibble) (b : Byte) :
    Frame { regs := [regF], display := true } s ((s.afterSprite x0 y0 n).writeV regF b) :=
  (frame_setDisplay s _).trans (frame_writeV ..)

/-! ### The execute phase -/

theorem flagByte_eq_zero_iff (b : Bool) : flagByte b = 0 ↔ b = false := by cases b <;> decide

/-- `Dxyn` when its bytes are in memory: the display and then VF are written (R151). -/
theorem exec_drw_of_fits (h : n.toNat = 0 ∨ s.base + n.toNat - 1 ≤ 0xFFF) (hx : (s.readV x).toNat = x0)
    (hy : (s.readV y).toNat = y0) : exec (.drw x y n) s =
      .next ((s.afterSprite x0 y0 n).writeV regF (flagByte (s.spriteDrawn x0 y0 n).2)) := by
  have hload : s.loadBytes s.base n.toNat = some (s.spriteRows n) :=
    State.loadBytes_of_ok (by rw [memSize]; omega)
  subst hx hy
  simp only [exec, execDrw, hload, State.afterSprite, State.spriteDrawn]

theorem exec_drw_of_beyond (hn : 0 < n.toNat) (h : 0xFFF < s.base + n.toNat - 1) :
    exec (.drw x y n) s = .next (s.executeFault .addressError (.drw x y n)) := by
  have hload : s.loadBytes s.base n.toNat = none := State.loadBytes_of_bad hn (by rw [memSize]; omega)
  simp only [exec, execDrw, hload]

/-- Settles O34: when the bytes are in memory the instruction writes the display as the pixels the sprite covers say,
and then VF; when they are not it takes the fault. -/
theorem spriteXorsDisplay : Obligations.SpriteXorsDisplay := by
  intro x y n s
  refine ⟨decodeWord_encode (i := .drw x y n) rfl, fun hfits => ⟨_, exec_drw_of_fits hfits rfl rfl,
    fun px py hpx hpy => ⟨State.pixel_spriteDrawn_of_covers, State.pixel_spriteDrawn_of_not_covers hpx hpy⟩,
    fun hcollision => ?_, fun hnone => ?_, frame_afterSprite_writeV ..⟩, exec_drw_of_beyond⟩
  · rw [State.readV_writeV_self, flagByte_eq_one_iff]
    exact State.spriteDrawn_collides_iff.mpr hcollision
  · rw [State.readV_writeV_self, flagByte_eq_zero_iff]
    exact Bool.eq_false_iff.mpr (mt State.spriteDrawn_collides_iff.mp hnone)

/-! ### Two draws -/

/-- Each covered pixel is inverted twice and every other is left twice (R155). -/
theorem State.spriteDrawn_afterSprite_disp :
    ((s.afterSprite x0 y0 n).spriteDrawn x0 y0 n).1 = s.disp := by
  refine display_ext fun px py hpx hpy => ?_
  by_cases h : s.SpriteCovers x0 y0 n.toNat px py
  · calc pixel ((s.afterSprite x0 y0 n).spriteDrawn x0 y0 n).1 px py
        = !pixel (s.spriteDrawn x0 y0 n).1 px py :=
          State.pixel_spriteDrawn_of_covers (State.spriteCovers_afterSprite.mpr h)
      _ = pixel s.disp px py := by rw [State.pixel_spriteDrawn_of_covers h, Bool.not_not]
  · calc pixel ((s.afterSprite x0 y0 n).spriteDrawn x0 y0 n).1 px py
        = pixel (s.spriteDrawn x0 y0 n).1 px py :=
          State.pixel_spriteDrawn_of_not_covers hpx hpy (mt State.spriteCovers_afterSprite.mp h)
      _ = pixel s.disp px py := State.pixel_spriteDrawn_of_not_covers hpx hpy h

/-- The second draw turns off exactly what the first lit (R154, R155). -/
theorem State.spriteDrawn_afterSprite_collides_iff :
    ((s.afterSprite x0 y0 n).spriteDrawn x0 y0 n).2 = true ↔
      ∃ px py, s.SpriteCovers x0 y0 n.toNat px py ∧ pixel s.disp px py = false := by
  rw [State.spriteDrawn_collides_iff]
  refine exists_congr fun px => exists_congr fun py => and_congr_right fun h => ?_
  rw [State.afterSprite, State.pixel_spriteDrawn_of_covers (State.spriteCovers_afterSprite.mp h),
    Bool.not_eq_true']

/-- Settles O35: with the registers put back, the second draw starts from the first one's display and draws the same
sprite at the same corner. -/
theorem spriteDrawnTwiceRestoresDisplay : Obligations.SpriteDrawnTwiceRestoresDisplay := by
  intro x y n s hfits
  generalize hx : (s.readV x).toNat = x0, hy : (s.readV y).toNat = y0
  have hsecond := exec_drw_of_fits (s := s.afterSprite x0 y0 n) hfits hx hy
  refine ⟨_, _, exec_drw_of_fits hfits hx hy, (congrArg _ (State.afterSprite_restoreRegs ..)).trans hsecond,
    State.spriteDrawn_afterSprite_disp, ?_, ?_⟩
  all_goals rw [State.readV_writeV_self, flagByte_eq_one_iff, State.spriteDrawn_afterSprite_collides_iff]
  rintro hblank ⟨r, hr, hbyte⟩
  obtain ⟨px, py, hcovers⟩ := State.exists_spriteCovers x0 y0 hr hbyte
  exact ⟨px, py, hcovers, hblank ▸ pixel_blankDisplay px py⟩

end Sys2Proof.Machine
end

section
/-! Keys and timers (45_keys_timers.md): the skips on a key's level (O36), and the transfers between a register and a
timer (O37). -/

namespace Sys2Proof.Machine

variable {s : State} {x : Reg}

/-! ### Skips on a key -/

theorem State.skipIf_not_pc (s : State) (c : Bool) :
    (s.skipIf (!c)).pc = if c = true then s.pc else s.pc + 2 := by
  cases c <;> rfl

theorem exec_skp_of_key (h : (s.readV x).toNat ≤ 15) :
    exec (.skp x) s = .next (s.skipIf (s.keys.getLsbD (s.readV x).toNat)) := by
  simp only [exec, execSkp, keyIndex_of_le h, State.keyDown_setWidth h]

theorem exec_sknp_of_key (h : (s.readV x).toNat ≤ 15) :
    exec (.sknp x) s = .next (s.skipIf (!s.keys.getLsbD (s.readV x).toNat)) := by
  simp only [exec, execSknp, keyIndex_of_le h, State.keyDown_setWidth h]

theorem exec_skp_of_no_key (h : 15 < (s.readV x).toNat) :
    exec (.skp x) s = .next (s.executeFault .keyIndexError (.skp x)) := by
  simp only [exec, execSkp, keyIndex_of_gt h]

theorem exec_sknp_of_no_key (h : 15 < (s.readV x).toNat) :
    exec (.sknp x) s = .next (s.executeFault .keyIndexError (.sknp x)) := by
  simp only [exec, execSknp, keyIndex_of_gt h]

/-- Settles O36: when the register names a key both are one skip, on the key's bit and on its complement; when it names
none both take the fault. -/
theorem keySkips : Obligations.KeySkips := by
  intro x s
  refine ⟨decodeWord_encode (i := .skp x) rfl, decodeWord_encode (i := .sknp x) rfl, fun hkey => ⟨?_, ?_⟩,
    fun hnone => ⟨exec_skp_of_no_key hnone, exec_sknp_of_no_key hnone⟩⟩
  · exact ⟨_, exec_skp_of_key hkey, s.skipIf_pc _, frame_skipIf ..⟩
  · exact ⟨_, exec_sknp_of_key hkey, s.skipIf_not_pc _, frame_skipIf ..⟩

/-! ### Timers -/

/-- The buzzer follows the sound timer, with no minimum value (R165, R177). -/
theorem isBuzzerActive_iff (s : State) : isBuzzerActive s = true ↔ s.st ≠ 0 :=
  decide_eq_true_iff.trans ((BitVec.toNat_pos s.st).trans (BitVec.pos_iff_ne_zero s.st))

/-- Settles O37: the read of `dt` is one register write, the two others are each one write of a timer. -/
theorem timerTransfers : Obligations.TimerTransfers := fun x s =>
  ⟨⟨decodeWord_encode (i := .ldVxDt x) rfl, writesOneRegister_of_exec rfl⟩,
    ⟨decodeWord_encode (i := .ldDtVx x) rfl, _, rfl, rfl, frame_setDelay s _⟩,
    ⟨decodeWord_encode (i := .ldStVx x) rfl, _, rfl, rfl, isBuzzerActive_iff _, frame_setSound s _⟩⟩

end Sys2Proof.Machine
end

section
/-! The host's outputs (46_host_operations.md): what `get_pixel` and `is_buzzer_active` read of the state (O46). -/

namespace Sys2Proof.Machine

open Sys2Proof.Config

/-- Coordinates wrap: whole widths and heights added to them name the same pixel (R29, R176). -/
theorem pixel_add_wraps (d : Display) (px py k l : Nat) : pixel d (px + dispW * k) (py + dispH * l) = pixel d px py := by
  rw [← pixel_mod, Nat.add_mul_mod_self_left, Nat.add_mul_mod_self_left, pixel_mod]

/-- Inside the grid a pixel is the bit of its row at its column (R29). -/
theorem pixel_of_lt (d : Display) {px py : Nat} (hx : px < dispW) (hy : py < dispH) :
    pixel d px py = d[py].getLsbD px := by
  simp only [pixel, Nat.mod_eq_of_lt hx, Nat.mod_eq_of_lt hy]

/-- Settles O46: the wraps drop out of the coordinates, and inside the grid the pixel is its row's bit; the buzzer
follows the sound timer. -/
theorem outputsReadTheState : Obligations.OutputsReadTheState := fun s px py k l hy hx =>
  ⟨(pixel_add_wraps s.disp px py k l).trans (pixel_of_lt s.disp hx hy), isBuzzerActive_iff s⟩

end Sys2Proof.Machine
end

section
/-! Exceptions (60_exceptions.md): nested calls up to a full stack (O15), the fatal condition each execute phase raises
(O47), and the timers after any number of ticks (O41). -/

namespace Sys2Proof.Machine

open Sys2Proof.Config

variable {s t : State} {i : Instr} {x : Reg}

/-! ### Nested calls -/

theorem execSeq_cons_of_next {is : List Instr} (h : exec i s = .next t) : execSeq (i :: is) s = execSeq is t := by
  simp only [execSeq, h]

/-- A call with room on the stack completes and counts in sp (R103). -/
theorem exec_call_of_room (nnn : Addr12) (h : s.sp.val < 16) :
    ∃ t, exec (.call nnn) s = .next t ∧ t.halted = s.halted ∧ t.sp.val = s.sp.val + 1 :=
  ⟨_, exec_call_of_push nnn (State.push_of_lt s.pc h), rfl, rfl⟩

/-- As many calls as there is room for complete one after another (R103). -/
theorem execSeq_calls_of_room (targets : List Addr12) (h : s.sp.val + targets.length ≤ 16) :
    ∃ t, execSeq (targets.map .call) s = .next t ∧ t.halted = s.halted ∧
      t.sp.val = s.sp.val + targets.length := by
  induction targets generalizing s with
  | nil => exact ⟨s, rfl, rfl, rfl⟩
  | cons nnn targets ih =>
    rw [List.length_cons] at h ⊢
    obtain ⟨u, hcall, hhalted, hsp⟩ := exec_call_of_room (s := s) nnn (by omega)
    obtain ⟨t, hcalls, hhalted', hsp'⟩ := ih (s := u) (by omega)
    exact ⟨t, (execSeq_cons_of_next hcall).trans hcalls, hhalted'.trans hhalted, by omega⟩

/-- Settles O15: the calls that fit complete, by induction on them, and on the full stack they leave the next one takes
the fault. -/
theorem callsSucceedUntilStackFull : Obligations.CallsSucceedUntilStackFull := by
  intro targets s hs hroom
  obtain ⟨t, hcalls, hhalted, hsp⟩ := execSeq_calls_of_room targets hroom
  exact ⟨t, hcalls, hhalted.trans hs, hsp, fun hfull nnn =>
    ⟨_, exec_call_of_full nnn (hsp.trans hfull), raised_executeFault ..⟩⟩

/-! ### The range of a register store and load -/

theorem exec_ldMemVx_of_fits (h : s.base + x.toNat ≤ 0xFFF) : exec (.ldMemVx x) s =
    .next { s with mem := memWriteBytes s.params.font s.mem s.base (s.regsThrough x) } := by
  have hstore := State.storeBytes_of_ok (s := s) (a := s.base) (bs := s.regsThrough x)
    (.inr (by rw [State.regsThrough_length, memSize]; omega))
  simp only [exec, execLdMemVx, hstore]

theorem exec_ldMemVx_of_beyond (h : 0xFFF < s.base + x.toNat) :
    exec (.ldMemVx x) s = .next (s.executeFault .addressError (.ldMemVx x)) := by
  have hstore : s.storeBytes s.base (s.regsThrough x) = none :=
    State.storeBytes_of_bad (by simp) (by rw [State.regsThrough_length, memSize]; omega)
  simp only [exec, execLdMemVx, hstore]

theorem exec_ldVxMem_of_fits (h : s.base + x.toNat ≤ 0xFFF) : exec (.ldVxMem x) s =
    .next (s.writeRegs (memReadBytes s.params.font s.mem s.base (x.toNat + 1))) := by
  have hload := State.loadBytes_of_ok (s := s) (a := s.base) (n := x.toNat + 1) (.inr (Nat.succ_le_succ h))
  simp only [exec, execLdVxMem, hload]

theorem exec_ldVxMem_of_beyond (h : 0xFFF < s.base + x.toNat) :
    exec (.ldVxMem x) s = .next (s.executeFault .addressError (.ldVxMem x)) := by
  have hload : s.loadBytes s.base (x.toNat + 1) = none :=
    State.loadBytes_of_bad (Nat.succ_pos _) (Nat.succ_lt_succ h)
  simp only [exec, execLdVxMem, hload]

/-! ### The fatal condition of an execute phase -/

/-- When the execute phase of an instruction raises a fatal condition (R187, R188, R190, R191). -/
def State.Fatal (s : State) : Instr → Prop
  | .call _ => s.sp.val = 16
  | .ret => s.sp.val = 0
  | .drw _ _ n => 0 < n.toNat ∧ 0xFFF < s.base + n.toNat - 1
  | .ldBVx _ => 0xFFF < s.base + 2
  | .ldMemVx x | .ldVxMem x => 0xFFF < s.base + x.toNat
  | .skp x | .sknp x => 15 < (s.readV x).toNat
  | _ => False

/-- Which fatal condition it then is (R185): AddressError for every instruction that accesses memory. It has no meaning
for an instruction that is never `State.Fatal`. -/
def fatalKind : Instr → Fault
  | .call _ => .stackOverflow
  | .ret => .stackUnderflow
  | .skp _ | .sknp _ => .keyIndexError
  | _ => .addressError

/-- An execute phase whose fatal condition holds takes the fault and does nothing else (R192, R193). -/
theorem exec_of_fatal (h : s.Fatal i) : exec i s = .next (s.executeFault (fatalKind i) i) := by
  cases i
  case call nnn => exact exec_call_of_full nnn h
  case ret => exact exec_ret_of_empty h
  case drw => exact exec_drw_of_beyond h.1 h.2
  case ldBVx =>
    exact exec_ldBVx_of_bad (State.storeBytes_of_bad (by simp [decimalDigits_length]) (Nat.succ_lt_succ h))
  case ldMemVx => exact exec_ldMemVx_of_beyond h
  case ldVxMem => exact exec_ldVxMem_of_beyond h
  case skp => exact exec_skp_of_no_key h
  case sknp => exact exec_sknp_of_no_key h
  all_goals exact absurd h not_false

/-- An execute phase whose fatal condition does not hold leaves `halted` as it was: eight instructions complete, every
other one has no fault latch in its footprint. -/
theorem exec_halted_of_not_fatal (hnot : ¬ s.Fatal i) : ∃ t, exec i s = .next t ∧ t.halted = s.halted := by
  cases i
  case call nnn =>
    have hroom : s.sp.val < 16 := Nat.lt_of_le_of_ne (Nat.le_of_lt_succ s.sp.isLt) hnot
    obtain ⟨t, hcall, hhalted, _⟩ := exec_call_of_room nnn hroom
    exact ⟨t, hcall, hhalted⟩
  case ret => exact ⟨_, exec_ret_of_pop (State.pop_of_pos (Nat.pos_of_ne_zero hnot)), rfl⟩
  case drw x y n =>
    have hfits : n.toNat = 0 ∨ s.base + n.toNat - 1 ≤ 0xFFF := by
      rw [State.Fatal] at hnot
      omega
    exact ⟨_, exec_drw_of_fits hfits rfl rfl, rfl⟩
  case ldBVx x =>
    have hfits : s.base + (decimalDigits (s.readV x)).length ≤ memSize := Nat.succ_le_succ (Nat.not_lt.mp hnot)
    exact ⟨_, exec_ldBVx_of_store (State.storeBytes_of_ok (.inr hfits)), rfl⟩
  case ldMemVx => exact ⟨_, exec_ldMemVx_of_fits (Nat.not_lt.mp hnot), rfl⟩
  case ldVxMem => exact ⟨_, exec_ldVxMem_of_fits (Nat.not_lt.mp hnot), rfl⟩
  case skp => exact ⟨_, exec_skp_of_key (Nat.not_lt.mp hnot), s.skipIf_halted _⟩
  case sknp => exact ⟨_, exec_sknp_of_key (Nat.not_lt.mp hnot), s.skipIf_halted _⟩
  all_goals
    obtain ⟨t, h⟩ := exec_answers _ s
    exact ⟨t, h, ((exec_frame h).latch rfl).1⟩

/-- An execute phase halts a core that runs exactly when its fatal condition holds (R192). -/
theorem exec_halted_iff_fatal (hs : s.halted = false) (h : exec i s = .next t) : t.halted = true ↔ s.Fatal i := by
  by_cases hf : s.Fatal i
  · cases (exec_of_fatal hf).symm.trans h
    exact iff_of_true rfl hf
  · obtain ⟨u, hu, hhalted⟩ := exec_halted_of_not_fatal hf
    cases hu.symm.trans h
    exact iff_of_false (by simp [hhalted, hs]) hf

/-- Settles O47: an execute phase halts a core that runs exactly when its fatal condition holds, and then with that
condition's code. -/
theorem fatalConditionsOfInstructions : Obligations.FatalConditionsOfInstructions := by
  intro i s t hs h
  rw [exec_halted_iff_fatal hs h]
  refine ⟨?_, fun hf => ?_⟩
  · cases i <;> simp [State.Fatal]
  · cases (exec_of_fatal hf).symm.trans h
    cases i <;> rfl

/-! ### Ticks -/

theorem runSchedule_cons_of_next {op : HostOp} {ops : List HostOp} (h : hostStep op s = .next t) :
    runSchedule (op :: ops) s = runSchedule ops t := by
  simp only [runSchedule, h]

theorem hostStep_tick_of_running (h : s.halted = false) :
    hostStep .tick s = .next { s with dt := countDown s.dt, st := countDown s.st } := by
  simp [hostStep, hostTick, h]

theorem countDown_iterate_toNat (k : Nat) (b : Byte) : (countDown^[k] b).toNat = b.toNat - k := by
  induction k with
  | zero => rfl
  | succ k ih => rw [Function.iterate_succ_apply', countDown_toNat, ih, Nat.sub_sub]

/-- Ticks count both timers down, each by itself, and change nothing else (R174, R201). -/
theorem runSchedule_ticks (k : Nat) (h : s.halted = false) : runSchedule (List.replicate k .tick) s =
    .next { s with dt := countDown^[k] s.dt, st := countDown^[k] s.st } := by
  induction k generalizing s with
  | zero => rfl
  | succ k ih =>
    rw [List.replicate_succ, runSchedule_cons_of_next (hostStep_tick_of_running h)]
    exact ih h

/-- Settles O41: `k` ticks are `k` counts down of each timer, each count one less and floored at 0. -/
theorem timersReachZeroAfterTheirValue : Obligations.TimersReachZeroAfterTheirValue := fun k s hs =>
  ⟨_, runSchedule_ticks k hs, countDown_iterate_toNat k s.dt, countDown_iterate_toNat k s.st, rfl⟩

end Sys2Proof.Machine
end

section
/-! Boot (70_reset_and_hazards.md): after a cold reset and the load of an image the core is about to fetch the image's
first word (O43). -/

namespace Sys2Proof.Machine

open Sys2Proof.Config

variable {s t : State}

/-- An image that fits is loaded by a checked store at `PROG_BASE` (R172). -/
theorem exists_store_of_loadProgram {bytes : List Byte} (hs : s.halted = false) (hfits : bytes.length ≤ maxImage) :
    ∃ t, hostStep (.loadProgram bytes) s = .next t ∧ s.storeBytes progBase bytes = some t := by
  have hstore : progBase + bytes.length ≤ memSize := Nat.add_le_of_le_sub' (by decide) hfits
  exact ⟨_, by simp [hostStep, hostLoadProgram, hs, Nat.not_lt.mpr hfits], State.storeBytes_of_ok (.inr hstore)⟩

/-- Two bytes or more stored at pc are the next word fetched, big-endian (R52, R60). -/
theorem fetchWord_of_storeBytes_pc {b0 b1 : Byte} {rest : List Byte}
    (hstore : s.storeBytes s.pc.toNat (b0 :: b1 :: rest) = some t) (hwf : Memory.wf s.params.font s.mem = true)
    (hpc : s.pc.toNat < 0xFFF) : t.fetchWord = some (wordOfBytes b0 b1) := by
  have hsame : t.pc = s.pc := (frame_storeBytes hstore).pc rfl
  have hhi : t.readByte s.pc.toNat = b0 := readByte_of_storeBytes (k := 0) hstore hwf (by simp)
  have hlo : t.readByte (s.pc.toNat + 1) = b1 := readByte_of_storeBytes hstore hwf (by simp)
  rw [State.fetchWord_of_lt (hsame ▸ hpc), hsame, hhi, hlo]

/-- Settles O43: the cold reset leaves a running core with pc at `PROG_BASE` and canonical memory, and the load is a
store there, which changes nothing but memory. -/
theorem bootFetchesFirstWord : Obligations.BootFetchesFirstWord := by
  intro s b0 b1 rest hrest
  obtain ⟨t, hload, hstore⟩ := exists_store_of_loadProgram (s := hostInit s) (bytes := b0 :: b1 :: rest) rfl
    (Nat.add_le_add_right hrest 2)
  have hframe := frame_storeBytes hstore
  have hpc : (hostInit s).pc = 0x200#16 := rfl
  refine ⟨t, ?_, (hframe.latch rfl).1, (hframe.wait rfl).1, (hframe.pc rfl).trans hpc, ?_⟩
  · rw [runSchedule_cons_of_next rfl, runSchedule_cons_of_next hload, runSchedule]
  · exact fetchWord_of_storeBytes_pc hstore (hostInit_inv s).memoryCanonical (hpc ▸ by decide)

end Sys2Proof.Machine
end

section
/-! The invariant of the reachable states (R39): after the cold reset (O55), through every cycle (O56) and through every
schedule of the host (O57). -/

namespace Sys2Proof.Machine

open Sys2Proof.Config

variable {s t : State} {i : Instr}

/-! ### Fatal conditions and the fetch -/

theorem Fault.code_range (f : Fault) : 1 ≤ f.code.toNat ∧ f.code.toNat ≤ 6 := by cases f <;> decide

/-- Taking a fatal condition writes the latch with a legal code and nothing else the invariant speaks of (R192). -/
theorem takeFault_inv (h : s.Inv) (f : Fault) (fpc opcode : Word) : (s.takeFault f fpc opcode).Inv :=
  { h with latchClear := nofun, latchSet := fun _ => f.code_range }

theorem advancePc_pc_le (h : s.pc.toNat < 0xFFF) : s.advancePc.pc.toNat ≤ 0x1000 := by
  rw [State.advancePc_pc]
  bv_omega

theorem advancePc_inv (h : s.Inv) (hpc : s.pc.toNat < 0xFFF) : s.advancePc.Inv :=
  { h with pcBound := (advancePc_pc_le hpc).trans (by decide) }

/-! ### The execute phase -/

theorem skipIf_pc_le (hpc : s.pc.toNat ≤ 0x1000) (c : Bool) : (s.skipIf c).pc.toNat ≤ 0x10FE := by
  rw [State.skipIf_pc]
  split <;> bv_omega

theorem zext16_le (nnn : Addr12) : (zext16 nnn).toNat ≤ 0x10FE := by
  have hnnn := nnn.isLt
  rw [zext16_toNat]
  omega

theorem State.room_of_not_fatal_call {nnn : Addr12} (h : ¬ s.Fatal (.call nnn)) : s.sp.val < 16 :=
  Nat.lt_of_le_of_ne (Nat.le_of_lt_succ s.sp.isLt) h

/-- Where an execute phase can leave pc (R39): a jump goes below 0x1000, `Bnnn` at most 0xFF further, a return to an
address on the stack, a skip two further than pc. -/
theorem exec_pc_le (hinv : s.Inv) (hpc : s.pc.toNat ≤ 0x1000) (h : exec i s = .next t) : t.pc.toNat ≤ 0x10FE := by
  by_cases hf : s.Fatal i
  · cases (exec_of_fatal hf).symm.trans h
    exact hinv.pcBound
  cases i
  case jp nnn => cases h; exact zext16_le nnn
  case jpV0 nnn =>
    cases h
    have hnnn := nnn.isLt
    have hv0 := (s.readV 0).isLt
    rw [State.jumpTo_pc, offsetTarget_toNat]
    omega
  case call nnn =>
    cases (exec_call_of_push nnn (State.push_of_lt s.pc (State.room_of_not_fatal_call hf))).symm.trans h
    exact zext16_le nnn
  case ret =>
    have hpos : 0 < s.sp.val := Nat.pos_of_ne_zero hf
    cases (exec_ret_of_pop (State.pop_of_pos hpos)).symm.trans h
    exact (hinv.stackBound _ _ (Nat.sub_lt hpos Nat.one_pos)).trans (by decide)
  case seImm | sneImm | seReg | sneReg => cases h; exact skipIf_pc_le hpc _
  case skp => cases (exec_skp_of_key (Nat.not_lt.mp hf)).symm.trans h; exact skipIf_pc_le hpc _
  case sknp => cases (exec_sknp_of_key (Nat.not_lt.mp hf)).symm.trans h; exact skipIf_pc_le hpc _
  all_goals
    rw [(exec_frame h).pc rfl]
    exact hinv.pcBound

/-- An execute phase keeps the bound of the return addresses: a call pushes pc, a return leaves one fewer (R39). -/
theorem exec_stackBound (hinv : s.Inv) (hpc : s.pc.toNat ≤ 0x1000) (h : exec i s = .next t) :
    ∀ k (hk : k < 16), k < t.sp.val → (t.stack[k]'hk).toNat ≤ 0x1000 := by
  intro k hk hlt
  by_cases hf : s.Fatal i
  · cases (exec_of_fatal hf).symm.trans h
    exact hinv.stackBound k hk hlt
  cases i
  case call nnn =>
    have hpush := State.push_of_lt s.pc (State.room_of_not_fatal_call hf)
    cases (exec_call_of_push nnn hpush).symm.trans h
    rcases Nat.eq_or_lt_of_le (Nat.le_of_lt_succ hlt) with rfl | hlt
    · exact (congrArg BitVec.toNat (Vector.getElem_set_self _)).trans_le hpc
    · exact (congrArg BitVec.toNat (State.push_stack_of_ne hpush hk (Nat.ne_of_lt hlt))).trans_le
        (hinv.stackBound k hk hlt)
  case ret =>
    have hpos : 0 < s.sp.val := Nat.pos_of_ne_zero hf
    cases (exec_ret_of_pop (State.pop_of_pos hpos)).symm.trans h
    exact hinv.stackBound k hk (Nat.lt_of_lt_of_le hlt (Nat.sub_le _ 1))
  all_goals
    obtain ⟨hstack, hsp⟩ := (exec_frame h).stack rfl
    simp only [hstack]
    exact hinv.stackBound k hk (hsp ▸ hlt)

/-- Every execute phase of a core that runs, fetched from below 0xFFF, keeps the invariant. -/
theorem exec_inv (hinv : s.Inv) (hrun : s.halted = false) (hpc : s.pc.toNat ≤ 0x1000) (h : exec i s = .next t) :
    t.Inv := by
  rcases exec_latch h with ⟨f, rfl, _⟩ | ⟨hhalted, hcode, hfpc, hopcode⟩
  · exact takeFault_inv hinv ..
  · exact
      { memoryCanonical := exec_memory_wf h hinv.memoryCanonical
        pcBound := exec_pc_le hinv hpc h
        stackBound := exec_stackBound hinv hpc h
        latchClear := fun _ => by rw [hcode, hfpc, hopcode]; exact hinv.latchClear hrun
        latchSet := fun ht => by simp [hhalted, hrun] at ht }

/-! ### The cycle and the schedule -/

/-- Settles O55: the cold reset gives an empty memory list, an empty stack and a clear latch. -/
theorem resetSatisfiesInvariant : Obligations.ResetSatisfiesInvariant where
  memoryCanonical := Memory.wf_nil
  pcBound := by decide
  stackBound := nofun
  latchClear _ := ⟨rfl, rfl, rfl⟩
  latchSet := nofun

/-- Settles O56: a cycle changes nothing, takes a fatal condition, or executes from a pc it has just advanced to at most
0x1000. -/
theorem stepKeepsInvariant : Obligations.StepKeepsInvariant := by
  intro s t hinv h
  rcases step_cases s with ⟨_, e⟩ | ⟨hrun, _, ⟨_, e⟩ | ⟨w, hw, ⟨r, _, e⟩ | ⟨i, _, e⟩⟩⟩
  · cases e.symm.trans h
    exact hinv
  · cases e.symm.trans h
    exact takeFault_inv hinv ..
  · obtain ⟨hpc, _⟩ := State.fetchWord_eq_some hw
    cases e.symm.trans h
    exact takeFault_inv (advancePc_inv hinv hpc) ..
  · obtain ⟨hpc, _⟩ := State.fetchWord_eq_some hw
    exact exec_inv (advancePc_inv hinv hpc) hrun (advancePc_pc_le hpc) (e.symm.trans h)

theorem hostLoadProgram_inv (hinv : s.Inv) (bytes : List Byte) : (hostLoadProgram bytes s).Inv := by
  unfold hostLoadProgram
  split
  · exact hinv
  · split
    · exact takeFault_inv hinv ..
    next hfits =>
      have hend : progBase + bytes.length ≤ memSize := Nat.add_le_of_le_sub' (by decide) (Nat.not_lt.mp hfits)
      exact { hinv with memoryCanonical := memWriteBytes_wf hinv.memoryCanonical (.inr hend) }

theorem hostTick_inv (hinv : s.Inv) : (hostTick s).Inv := by
  unfold hostTick
  split
  · exact hinv
  · exact { hinv with }

theorem hostSetKeyState_inv (hinv : s.Inv) (k : BitVec 4) (isDown : Bool) : (hostSetKeyState k isDown s).Inv := by
  unfold hostSetKeyState
  split
  · exact hinv
  · dsimp only
    split <;> exact { hinv with }

/-- Every transition of the machine and its host keeps the invariant (R39, R178). -/
theorem hostStep_inv {op : HostOp} (hinv : s.Inv) (h : hostStep op s = .next t) : t.Inv := by
  cases op
  case cycle => exact stepKeepsInvariant s t hinv h
  all_goals cases h
  case init => exact hostInit_inv s
  case reset => exact hostReset_inv hinv.memoryCanonical
  case loadProgram bytes => exact hostLoadProgram_inv hinv bytes
  case tick => exact hostTick_inv hinv
  case setKeyState k isDown => exact hostSetKeyState_inv hinv k isDown

theorem hostStep_answers (op : HostOp) (s : State) : ∃ t, hostStep op s = .next t := by
  cases op
  case cycle => exact step_answers s
  all_goals exact ⟨_, rfl⟩

/-- What every transition keeps every schedule keeps (R178). -/
theorem runSchedule_keeps {P : State → Prop} (hkeep : ∀ {op s t}, P s → hostStep op s = .next t → P t)
    {ops : List HostOp} (hs : P s) (h : runSchedule ops s = .next t) : P t := by
  induction ops generalizing s with
  | nil => cases h; exact hs
  | cons op ops ih =>
    obtain ⟨u, hu⟩ := hostStep_answers op s
    exact ih (hkeep hs hu) ((runSchedule_cons_of_next hu).symm.trans h)

/-- Settles O57: every transition keeps the invariant, the host's included. -/
theorem schedulesKeepInvariant : Obligations.SchedulesKeepInvariant :=
  fun _ _ _ hinv h => runSchedule_keeps hostStep_inv hinv h

end Sys2Proof.Machine
end

section
/-! Memory (20_memory.md, 43_index_memory.md): the canonical form determines the list (O32), the store and load of
registers (O28, O29, O30), and a store over the next instruction (O31). -/

namespace Sys2Proof.Machine

open Sys2Proof.Config

variable {font : Vector Byte fontLen} {m m' : Memory} {s t : State} {x : Reg}

/-! ### The canonical form -/

theorem memRead_cons_self (k : Nat) (b : Byte) (m : Memory) : memRead font ((k, b) :: m) k = b := if_pos rfl

theorem memRead_cons_of_ne {k a : Nat} (b : Byte) (m : Memory) (h : a ≠ k) :
    memRead font ((k, b) :: m) a = memRead font m a := if_neg h.symm

/-- The first address a canonical memory lists reads as no unlisted address does, so a memory that reads the same does not
begin above it. -/
theorem head_ge_of_reads_alike {k lo : Nat} {b : Byte} (hb : b ≠ unlistedByte font k)
    (hwf' : Memory.wfFrom font lo m' = true) (hread : memRead font ((k, b) :: m) k = memRead font m' k) :
    lo ≤ k := by
  by_contra hlt
  rw [memRead_cons_self, memRead_below hwf' (Nat.not_le.mp hlt)] at hread
  exact hb hread

/-- By induction on both lists: each first entry shows in what is read, so the first addresses are the same, and past them
the tails read alike. -/
theorem eq_of_reads_alike {lo lo' : Nat} (hwf : Memory.wfFrom font lo m = true)
    (hwf' : Memory.wfFrom font lo' m' = true) (hread : ∀ a, memRead font m a = memRead font m' a) : m = m' := by
  induction m generalizing lo lo' m' with
  | nil =>
    cases m' with
    | nil => rfl
    | cons e' m' =>
      obtain ⟨_, _, hb', _⟩ := Memory.wfFrom_cons.mp hwf'
      exact absurd ((hread e'.1).trans (memRead_cons_self ..)).symm hb'
  | cons e m ih =>
    obtain ⟨k, b⟩ := e
    obtain ⟨_, hk, hb, htail⟩ := Memory.wfFrom_cons.mp hwf
    cases m' with
    | nil => exact absurd ((memRead_cons_self ..).symm.trans (hread k)) hb
    | cons e' m' =>
      obtain ⟨k', b'⟩ := e'
      obtain ⟨_, hk', hb', htail'⟩ := Memory.wfFrom_cons.mp hwf'
      have hheads : k = k' := Nat.le_antisymm
        (head_ge_of_reads_alike hb' (Memory.wfFrom_cons.mpr ⟨le_rfl, hk, hb, htail⟩) (hread k').symm)
        (head_ge_of_reads_alike hb (Memory.wfFrom_cons.mpr ⟨le_rfl, hk', hb', htail'⟩) (hread k))
      subst hheads
      have hbytes : b = b' := by simpa only [memRead_cons_self] using hread k
      have htails (a : Nat) : memRead font m a = memRead font m' a := by
        by_cases ha : a = k
        · rw [ha, memRead_below htail (Nat.lt_succ_self k), memRead_below htail' (Nat.lt_succ_self k)]
        · simpa only [memRead_cons_of_ne _ _ ha] using hread a
      rw [hbytes, ih htail htail' htails]

/-- Settles O32: the canonical form is the one from address 0 up. -/
theorem canonicalMemoriesEqual : Obligations.CanonicalMemoriesEqual :=
  fun _ _ _ hwf hwf' hread => eq_of_reads_alike hwf hwf' hread

/-! ### Registers to memory and back -/

/-- `Fx55` with its bytes in memory is a checked store of the registers (R144). -/
theorem storeRegs_of_fits (h : s.base + x.toNat ≤ 0xFFF) : ∃ t, exec (.ldMemVx x) s = .next t ∧
    s.storeBytes s.base (s.regsThrough x) = some t :=
  ⟨_, exec_ldMemVx_of_fits h, State.storeBytes_of_ok (.inr (by rw [State.regsThrough_length, memSize]; omega))⟩

theorem frame_storeRegs (h : s.storeBytes s.base (s.regsThrough x) = some t) :
    Frame { bytes := addressesFrom s.base (x.toNat + 1) } s t :=
  s.regsThrough_length x ▸ frame_storeBytes h

/-- Registers stored read back from memory (R60, R144). -/
theorem readByte_of_storeRegs (h : s.storeBytes s.base (s.regsThrough x) = some t)
    (hwf : Memory.wf s.params.font s.mem = true) {r : Reg} (hr : r.toNat ≤ x.toNat) :
    t.readByte (s.base + r.toNat) = s.readV r := by
  have hlen : r.toNat < (s.regsThrough x).length := by
    rw [State.regsThrough_length]
    exact Nat.lt_succ_of_le hr
  exact (readByte_of_storeBytes h hwf hlen).trans (s.regsThrough_getElem x r hlen)

/-- Settles O28: with the bytes in memory the instruction is a store of the registers, and it takes the fault when the last
of them is not. -/
theorem registersStored : Obligations.RegistersStored := by
  intro x s
  refine ⟨decodeWord_encode (i := .ldMemVx x) rfl, fun hfits => ?_, exec_ldMemVx_of_beyond⟩
  obtain ⟨t, hexec, hstore⟩ := storeRegs_of_fits hfits
  exact ⟨t, hexec, frame_storeRegs hstore, fun hwf _ hr => readByte_of_storeRegs hstore hwf hr⟩

/-- The bytes of memory loaded into registers: what each register up to `Vx` then holds (R145). -/
theorem State.readV_writeRegs_mem {r : Reg} (hr : r.toNat ≤ x.toNat) :
    (s.writeRegs (memReadBytes s.params.font s.mem s.base (x.toNat + 1))).readV r =
      s.readByte (s.base + r.toNat) := by
  have hlen : r.toNat < (memReadBytes s.params.font s.mem s.base (x.toNat + 1)).length := by
    rw [memReadBytes_length]
    exact Nat.lt_succ_of_le hr
  rw [State.readV_writeRegs, dif_pos hlen, memReadBytes_getElem, State.readByte]

/-- Settles O29: with the bytes in memory the instruction is a load of the registers, and it takes the fault when the last
of them is not. -/
theorem registersLoaded : Obligations.RegistersLoaded := fun x s =>
  ⟨decodeWord_encode (i := .ldVxMem x) rfl,
    fun hfits => ⟨_, exec_ldVxMem_of_fits hfits, fun _ => State.readV_writeRegs_mem,
      frame_writeRegs s (memReadBytes_length ..)⟩,
    exec_ldVxMem_of_beyond⟩

/-- Settles O30: the store leaves I, so the load reads the bytes stored, whatever the registers held between. -/
theorem loadAfterStoreRestoresRegisters : Obligations.LoadAfterStoreRestoresRegisters := by
  intro x s junk hwf hfits
  obtain ⟨t, hexec, hstore⟩ := storeRegs_of_fits hfits
  have hbase : t.base = s.base := congrArg BitVec.toNat ((frame_storeRegs hstore).index rfl)
  refine ⟨t, _, hexec, exec_ldVxMem_of_fits (s := { t with v := junk }) (hbase ▸ hfits), rfl, fun r hr => ?_⟩
  calc _ = t.readByte (t.base + r.toNat) := State.readV_writeRegs_mem (s := { t with v := junk }) hr
    _ = s.readV r := by rw [hbase, readByte_of_storeRegs hstore hwf hr]

/-- Settles O31: the word `F155` is `LD [I], V1`, whose store at I puts V0 and V1 at the pc the cycle has advanced to. -/
theorem storeSeenByNextFetch : Obligations.StoreSeenByNextFetch := by
  intro s hhalted hwait hwf hpc hhi hlo hi
  have hpc2 : s.advancePc.pc.toNat = s.pc.toNat + 2 := by
    rw [State.advancePc_pc]
    bv_omega
  have hbase : s.advancePc.base = s.pc.toNat + 2 := (congrArg BitVec.toNat hi).trans hpc2
  obtain ⟨t, hexec, hstore⟩ := storeRegs_of_fits (s := s.advancePc) (x := 1) (by rw [hbase]; exact hpc)
  have hstep : step s = exec (.ldMemVx 1) s.advancePc :=
    step_of_legal hhalted hwait (State.fetchWord_of_lt (by omega)) (by rw [hhi, hlo]; rfl)
  have htpc : t.pc = s.pc + 2 := (frame_storeRegs hstore).pc rfl
  have hread {r : Reg} (hr : r.toNat ≤ 1) : t.readByte (s.pc.toNat + 2 + r.toNat) = s.readV r := by
    rw [← hbase]
    exact readByte_of_storeRegs hstore hwf hr
  refine ⟨t, hstep.trans hexec, htpc, ?_⟩
  have hfetch : t.pc.toNat = s.pc.toNat + 2 := (congrArg BitVec.toNat htpc).trans hpc2
  rw [State.fetchWord_of_lt (by omega), hfetch]
  exact congrArg some (congrArg₂ wordOfBytes (hread (r := 0) (by decide)) (hread (r := 1) (by decide)))

end Sys2Proof.Machine
end

section
/-! The cycle and the fatal conditions (40_cycle.md, 60_exceptions.md): the fetch (O7), what a cycle that halts does to the
state (O48) and to the latch (O49), that a halted core is frozen (O50), what no cycle does (O52), and the jump to itself
(O54). -/

namespace Sys2Proof.Machine

open Sys2Proof.Config

variable {s t : State} {i : Instr} {w : Word}

/-! ### The fetch -/

/-- A running core at 0xFFF or above takes AddressError before pc moves (R93, R190). -/
theorem step_of_noFetch (hhalted : s.halted = false) (hwait : s.waitKey = false) (hfetch : s.fetchWord = none) :
    step s = .next s.fetchFault := by
  simp [step, hhalted, hwait, hfetch]

theorem State.advancePc_pc_sub (s : State) : s.advancePc.pc - 2 = s.pc := BitVec.add_sub_cancel s.pc 2

/-- A fatal condition raised after the fetch records the address the fetch began at (R192). -/
theorem State.advancePc_decodeFault (s : State) (w : Word) :
    s.advancePc.decodeFault w = s.advancePc.takeFault .decodeError s.pc w := by
  rw [State.decodeFault, State.advancePc_pc_sub]

theorem State.advancePc_executeFault (s : State) (f : Fault) (i : Instr) :
    s.advancePc.executeFault f i = s.advancePc.takeFault f s.pc (encode i) := by
  rw [State.executeFault, State.advancePc_pc_sub]

/-- Settles O7: below 0xFFF the fetch is admitted, and the word's decoding says which of two cycles it is. -/
theorem fetchAdvancesOrFaults : Obligations.FetchAdvancesOrFaults := by
  intro s hhalted hwait
  refine ⟨fun hpc => ?_, fun hpc => step_of_noFetch hhalted hwait (State.fetchWord_of_ge hpc)⟩
  have hfetch := State.fetchWord_of_lt hpc
  split
  next i hi => exact step_of_legal hhalted hwait hfetch hi
  next r hr =>
    exact (step_of_illegal hhalted hwait hfetch hr).trans (congrArg _ (s.advancePc_decodeFault _))

/-- Settles O54: the word decodes to the jump, which writes back the pc that the fetch moved. -/
theorem jumpToSelfChangesNothing : Obligations.JumpToSelfChangesNothing := by
  rintro s ⟨⟨hhalted, hwait⟩, nnn, hfetch, hpc⟩
  calc step s = exec (.jp nnn) s.advancePc :=
        step_of_legal hhalted hwait hfetch (decodeWord_encode (i := .jp nnn) rfl)
    _ = .next { s with pc := zext16 nnn } := rfl
    _ = .next s := by rw [← hpc]

/-! ### A cycle that halts -/

/-- Everything a cycle that halts can do: take AddressError at the fetch, or, pc once advanced, take a fatal condition
that names the address and the word fetched (R192, R193). -/
theorem step_halts_cases (hs : s.halted = false) (h : step s = .next t) (ht : t.halted = true) :
    (s.fetchWord = none ∧ t = s.takeFault .addressError s.pc 0) ∨
      ∃ w f, s.fetchWord = some w ∧ f ≠ .loadError ∧ t = s.advancePc.takeFault f s.pc w := by
  rcases step_cases s with ⟨_, e⟩ | ⟨_, _, ⟨hfetch, e⟩ | ⟨w, hfetch, ⟨r, _, e⟩ | ⟨i, hi, e⟩⟩⟩
  · cases e.symm.trans h
    cases hs.symm.trans ht
  · cases e.symm.trans h
    exact .inl ⟨hfetch, rfl⟩
  · cases e.symm.trans h
    exact .inr ⟨w, .decodeError, hfetch, by decide, s.advancePc_decodeFault w⟩
  · rcases exec_latch (e.symm.trans h) with ⟨f, rfl, hf, _⟩ | ⟨hhalted, _⟩
    · obtain ⟨rfl, _⟩ := encodeOfDecodedWord w i hi
      exact .inr ⟨_, f, hfetch, hf, s.advancePc_executeFault f i⟩
    · cases ht.symm.trans (hhalted.trans hs)

/-- Settles O48: in both of its forms the cycle that halts writes at most pc and the latch. -/
theorem fatalConditionsArePrecise : Obligations.FatalConditionsArePrecise := by
  intro s t hs h ht
  rcases step_halts_cases hs h ht with ⟨_, rfl⟩ | ⟨w, f, _, _, rfl⟩ <;> rfl

theorem Fault.code_mem_of_ne_loadError {f : Fault} (h : f ≠ .loadError) : f.code ∈ [2, 3, 4, 5, 6] := by
  cases f
  case loadError => exact absurd rfl h
  all_goals decide

/-- Loading halts a core that runs only with LoadError (R186). -/
theorem hostLoadProgram_halts {bytes : List Byte} (hs : s.halted = false)
    (ht : (hostLoadProgram bytes s).halted = true) : hostLoadProgram bytes s = s.takeFault .loadError 0 0 := by
  rw [hostLoadProgram, if_neg (by simp [hs])] at ht ⊢
  split
  next => rfl
  next hfits =>
    rw [if_neg hfits] at ht
    cases hs.symm.trans ht

/-- Settles O49: the two forms of a cycle that halts are told apart by whether pc is below 0xFFF, and each names what the
latch records. -/
theorem faultLatchRecordsFailingInstruction : Obligations.FaultLatchRecordsFailingInstruction := by
  constructor
  · intro s t hs h ht
    rcases step_halts_cases hs h ht with ⟨hfetch, rfl⟩ | ⟨w, f, hfetch, hf, rfl⟩
    · have hpc : ¬ s.pc.toNat < 0xFFF := fun hlt => by cases hfetch.symm.trans (State.fetchWord_of_lt hlt)
      exact ⟨rfl, Fault.code_mem_of_ne_loadError (f := .addressError) (by decide), fun _ => ⟨rfl, rfl, rfl⟩,
        fun hlt => absurd hlt hpc⟩
    · obtain ⟨hpc, rfl⟩ := State.fetchWord_eq_some hfetch
      exact ⟨rfl, Fault.code_mem_of_ne_loadError hf, fun hge => absurd hpc (Nat.not_lt.mpr hge), fun _ => ⟨rfl, rfl⟩⟩
  · intro s t bytes hs h ht
    cases h
    rw [hostLoadProgram_halts hs ht]
    exact ⟨rfl, rfl, rfl, rfl⟩

/-! ### The halted core -/

/-- While halted every operation but the two resets answers the state it was given (R195). -/
theorem hostStep_of_halted {op : HostOp} (hs : s.halted = true) (hinit : op ≠ .init) (hreset : op ≠ .reset) :
    hostStep op s = .next s := by
  cases op
  case init => exact absurd rfl hinit
  case reset => exact absurd rfl hreset
  case cycle => exact haltedOrStalledCycleDoesNothing s (.inl hs)
  case loadProgram | tick | setKeyState => exact congrArg _ (if_pos hs)

/-- Settles O50: the two resets clear the latch, and no other operation does anything. -/
theorem haltedStateIsFrozen : Obligations.HaltedStateIsFrozen :=
  fun _ hs => ⟨fun _ => hostStep_of_halted hs, ⟨_, rfl, rfl⟩, ⟨_, rfl, rfl⟩⟩

/-! ### What no cycle does -/

/-- A fatal condition of a cycle, taken with pc moved or not (R192, R193). -/
theorem frame_jumpTo_takeFault (s : State) (pc : Word) (f : Fault) (fpc opcode : Word) :
    Frame { pc := true, latch := true } s ((s.jumpTo pc).takeFault f fpc opcode) := by
  constructor <;> simp

/-- The frame of every cycle: pc and the latch when it executes nothing, pc and the instruction's footprint when it does
(R93, R95). -/
theorem step_frame (h : step s = .next t) : ∃ f, Frame f s t ∧ (f = { pc := true, latch := true } ∨
    ∃ i, s.fetchWord = some (encode i) ∧ f = Footprint.union { pc := true } (footprint i s.advancePc)) := by
  rcases step_cases s with ⟨_, e⟩ | ⟨_, _, ⟨_, e⟩ | ⟨w, hfetch, ⟨r, _, e⟩ | ⟨i, hi, e⟩⟩⟩
  · cases e.symm.trans h
    exact ⟨_, Frame.refl .., .inl rfl⟩
  · cases e.symm.trans h
    exact ⟨_, frame_jumpTo_takeFault s s.pc .addressError s.pc 0, .inl rfl⟩
  · cases e.symm.trans h
    exact ⟨_, frame_jumpTo_takeFault s (s.pc + 2) .decodeError _ w, .inl rfl⟩
  · obtain ⟨rfl, _⟩ := encodeOfDecodedWord w i hi
    exact ⟨_, (frame_jumpTo s (s.pc + 2)).trans (exec_frame (e.symm.trans h)), .inr ⟨i, hfetch, rfl⟩⟩

theorem footprint_delay {u : State} (h : (footprint i u).delay = true) : ∃ x, i = .ldDtVx x := by
  cases i
  case ldDtVx x => exact ⟨x, rfl⟩
  all_goals cases h

theorem footprint_sound {u : State} (h : (footprint i u).sound = true) : ∃ x, i = .ldStVx x := by
  cases i
  case ldStVx x => exact ⟨x, rfl⟩
  all_goals cases h

/-- Settles O52: no footprint has the keys in it, `Fx15` alone has the delay timer and `Fx18` alone the sound timer, and a
stalled core does not get as far as the fetch. -/
theorem cycleNeverTicksNorTouchesKeys : Obligations.CycleNeverTicksNorTouchesKeys := by
  intro s t h
  obtain ⟨f, hframe, hf⟩ := step_frame h
  refine ⟨hframe.keys, fun hwait => ?_, fun hne => ?_, fun hne => ?_⟩
  · cases (haltedOrStalledCycleDoesNothing s (.inr hwait)).symm.trans h
    exact hwait
  · have hdelay : f.delay = true := Bool.of_not_eq_false (mt hframe.delay hne)
    rcases hf with rfl | ⟨i, hfetch, rfl⟩
    · cases hdelay
    · obtain ⟨x, rfl⟩ := footprint_delay hdelay
      exact ⟨x, hfetch⟩
  · have hsound : f.sound = true := Bool.of_not_eq_false (mt hframe.sound hne)
    rcases hf with rfl | ⟨i, hfetch, rfl⟩
    · cases hsound
    · obtain ⟨x, rfl⟩ := footprint_sound hsound
      exact ⟨x, hfetch⟩

end Sys2Proof.Machine
end

section
/-! Arithmetic with flags and the random byte (42_alu.md): the immediate sum (O20), differences (O22), shifts (O23), VF as
the destination (O24), and the masked draw (O25). -/

namespace Sys2Proof.Machine

open Sys2Proof.Config

variable {i : Instr} {s : State} {x : Reg} {result flag : Byte}

/-- Settles O20: one register write, of the sum mod 256. -/
theorem addImmediateLeavesFlag : Obligations.AddImmediateLeavesFlag := by
  intro x kk s
  refine ⟨decodeWord_encode (i := .addImm x kk) rfl, _, rfl, ?_, frame_writeV ..⟩
  rw [State.readV_writeV_self, wrapSum_toNat]

/-! ### The flag and then the result -/

theorem State.readV_writeFlagThenResult_self (s : State) (x : Reg) (flag result : Byte) :
    (s.writeFlagThenResult x flag result).readV x = result := by
  rw [State.readV_writeFlagThenResult, if_pos rfl]

theorem State.readV_writeFlagThenResult_flag (s : State) (flag result : Byte) (hx : x ≠ regF) :
    (s.writeFlagThenResult x flag result).readV regF = flag := by
  rw [State.readV_writeFlagThenResult, if_neg hx.symm, if_pos rfl]

/-- An instruction whose execute phase is one flag and one result, in this order, leaves the result in `Vx` whatever `x`
is, the flag in VF when `x` is not F, and everything else as it was (R127 to R130, R133). -/
theorem writesFlagThenResult_of_exec {n : Nat} (h : exec i s = .next (s.writeFlagThenResult x flag result))
    {P : Byte → Prop} (hresult : P result) (hflag : flag.toNat = n) :
    ∃ t, exec i s = .next t ∧ P (t.readV x) ∧ (x ≠ regF → (t.readV regF).toNat = n) ∧
      Frame { regs := [x, regF] } s t := by
  refine ⟨_, h, ?_, fun hx => ?_, frame_writeFlagThenResult ..⟩
  · rwa [State.readV_writeFlagThenResult_self]
  · rwa [State.readV_writeFlagThenResult_flag s flag result hx]

theorem noBorrowFlag_toNat (a b : Byte) : (noBorrowFlag a b).toNat = if a.toNat ≥ b.toNat then 1 else 0 := by
  simp only [noBorrowFlag, flagByte_toNat, decide_eq_true_eq]

theorem wrapDifference_toNat (a b : Byte) :
    ((wrapDifference a b).toNat : Int) = (a.toNat - b.toNat : Int) % 256 := by
  have ha := a.isLt
  have hb := b.isLt
  rw [wrapDifference, BitVec.toNat_ofNat]
  omega

/-- Settles O22: both write the no-borrow and then the difference. -/
theorem subtractionsSetNoBorrow : Obligations.SubtractionsSetNoBorrow := fun x y s =>
  ⟨⟨decodeWord_encode (i := .subReg x y) rfl, writesFlagThenResult_of_exec rfl
      (P := fun b => (b.toNat : Int) = ((s.readV x).toNat - (s.readV y).toNat : Int) % 256)
      (wrapDifference_toNat ..) (noBorrowFlag_toNat ..)⟩,
    ⟨decodeWord_encode (i := .subnReg x y) rfl, writesFlagThenResult_of_exec rfl
      (P := fun b => (b.toNat : Int) = ((s.readV y).toNat - (s.readV x).toNat : Int) % 256)
      (wrapDifference_toNat ..) (noBorrowFlag_toNat ..)⟩⟩

theorem lowBitFlag_toNat (a : Byte) : (lowBitFlag a).toNat = a.toNat % 2 := by
  have hbit : a.getLsbD 0 = decide (a.toNat % 2 = 1) := Nat.testBit_zero _
  rw [lowBitFlag, flagByte_toNat, hbit]
  simp only [decide_eq_true_eq]
  split <;> omega

theorem highBitFlag_toNat (a : Byte) : (highBitFlag a).toNat = a.toNat / 128 := by
  have ha := a.isLt
  have hbit : a.getLsbD 7 = decide (a.toNat / 2 ^ 7 % 2 = 1) := Nat.testBit_eq_decide_div_mod_eq
  rw [highBitFlag, flagByte_toNat, hbit]
  simp only [decide_eq_true_eq]
  split <;> omega

/-- Settles O23: both write the bit shifted out and then the shifted byte. -/
theorem shiftsSetShiftedOutBit : Obligations.ShiftsSetShiftedOutBit := fun x y s =>
  ⟨⟨decodeWord_encode (i := .shr x y) rfl, writesFlagThenResult_of_exec rfl (P := (· = s.readV x >>> 1))
      (shiftRight_eq _) (lowBitFlag_toNat _)⟩,
    ⟨decodeWord_encode (i := .shl x y) rfl, writesFlagThenResult_of_exec rfl (P := (· = s.readV y <<< 1))
      (shiftLeft_eq _) (highBitFlag_toNat _)⟩⟩

/-! ### VF as the destination -/

/-- Settles O24: `8xy4` writes the carry last, the four others the result. -/
theorem flagRegisterAsDestination : Obligations.FlagRegisterAsDestination := by
  intro y s
  obtain ⟨_, t, hadd, _, hcarry, _⟩ := addRegistersSetsCarry regF y s
  have hresult (flag result : Byte) := s.readV_writeFlagThenResult_self regF flag result
  exact ⟨⟨t, hadd, hcarry⟩,
    ⟨_, rfl, (hresult ..).trans (wrapDifference_eq ..)⟩,
    ⟨_, rfl, (hresult ..).trans (shiftRight_eq _)⟩,
    ⟨_, rfl, (hresult ..).trans (wrapDifference_eq ..)⟩,
    ⟨_, rfl, (hresult ..).trans (shiftLeft_eq _)⟩⟩

/-! ### The random byte -/

/-- A raw draw is reduced once, below `RND_BOUND`, which a byte can hold (R15). -/
theorem State.randomByte_toNat (s : State) :
    s.randomByte.1.toNat = (rngNext s.rng).1 % rndBound s.params :=
  Nat.mod_eq_of_lt ((Nat.mod_lt _ (rndBound_pos s.params)).trans_le (rndBound_le s.params))

/-- Settles O25: the draw advances the generator, and then its byte, masked, is written. -/
theorem randomByteMasked : Obligations.RandomByteMasked := fun x kk s =>
  ⟨decodeWord_encode (i := .rnd x kk) rfl, _, rfl,
    ⟨s.randomByte.1, s.randomByte_toNat, s.randomByte_lt, State.readV_writeV_self ..⟩, rfl,
    (frame_randomByte s).trans (frame_writeV ..)⟩

end Sys2Proof.Machine
end

section
/-! Host operations (46_host_operations.md): key events (O39) and the stall they end (O38), the tick (O40), loading (O42),
the warm reset (O44) and the cold reset (O45). -/

namespace Sys2Proof.Machine

open Sys2Proof.Config

variable {s : State} {k : BitVec 4}

/-! ### Key events -/

/-- The number of a key fits in the register that receives it (R175). -/
theorem readV_writeV_key_toNat (s : State) (x r : Reg) (k : BitVec 4) :
    ((s.writeV x (k.setWidth 8)).readV r).toNat = if r = x then k.toNat else (s.readV r).toNat := by
  rw [State.readV_writeV, apply_ite BitVec.toNat, BitVec.toNat_setWidth_of_le (by decide)]

/-- Settles O39: a down-edge during a stall ends it, and every other event moves the key alone. -/
theorem keyEvents : Obligations.KeyEvents := by
  intro k isDown s
  refine ⟨fun hs => congrArg _ (if_pos hs), fun hs => ⟨_, rfl, ?_⟩⟩
  have hkeys (j : Nat) (hj : j < 16) := setKey_getLsbD s.keys k isDown hj
  by_cases hedge : isDown = true ∧ s.keys.getLsbD k.toNat = false ∧ s.waitKey = true
  · obtain ⟨rfl, hup, hwait⟩ := hedge
    rw [hostSetKeyState_downEdge hs hup hwait]
    exact ⟨hkeys, fun _ => ⟨rfl, fun r => readV_writeV_key_toNat s s.keyTarget r k⟩,
      fun hno => absurd ⟨rfl, hup, hwait⟩ hno, rfl⟩
  · rw [hostSetKeyState_noEdge hs hedge]
    exact ⟨hkeys, fun h => absurd h hedge, fun _ => ⟨rfl, rfl⟩, rfl⟩

/-- The first key that goes down ends a stall: the target register receives its number (R163, R175). -/
theorem hostStep_keyDown_of_stalled (hs : s.halted = false) (hwait : s.waitKey = true)
    (hup : s.keys.getLsbD k.toNat = false) : ∃ t, hostStep (.setKeyState k true) s = .next t ∧
      t.waitKey = false ∧ (t.readV s.keyTarget).toNat = k.toNat ∧ t.pc = s.pc := by
  refine ⟨_, congrArg Host.Outcome.next (hostSetKeyState_downEdge hs hup hwait), rfl, ?_, rfl⟩
  exact (readV_writeV_key_toNat s s.keyTarget s.keyTarget k).trans (if_pos rfl)

/-- A key already down makes no edge, stalled or not (D15). -/
theorem hostStep_keyDown_of_down (hs : s.halted = false) (hdown : s.keys.getLsbD k.toNat = true) :
    hostStep (.setKeyState k true) s = .next s := by
  have hnoEdge := hostSetKeyState_noEdge (k := k) (isDown := true) hs fun ⟨_, hup, _⟩ => nomatch hdown.symm.trans hup
  exact congrArg Host.Outcome.next (hnoEdge.trans (by rw [setKey_of_same hdown]))

/-- A release makes no edge, stalled or not (D15). -/
theorem hostStep_keyUp (hs : s.halted = false) (k : BitVec 4) : ∃ t, hostStep (.setKeyState k false) s = .next t ∧
    t.waitKey = s.waitKey ∧ t.v = s.v :=
  ⟨_, congrArg Host.Outcome.next (hostSetKeyState_noEdge hs fun ⟨hdown, _⟩ => Bool.false_ne_true hdown), rfl, rfl⟩

/-- `s` as `Fx0A` leaves it, waiting for a key to put into `Vx` (R163). -/
def State.stalledOn (s : State) (x : Reg) : State := { s with waitKey := true, keyTarget := x }

/-- Settles O38: the instruction sets the latch alone; a cycle and the key events are then those of a stalled core. -/
theorem waitForKeyStallsUntilDownEdge : Obligations.WaitForKeyStallsUntilDownEdge := fun x s =>
  ⟨decodeWord_encode (i := .ldVxK x) rfl, s.stalledOn x, rfl, rfl, rfl, frame_setWait s x,
    haltedOrStalledCycleDoesNothing _ (.inr rfl), fun hs _ =>
      ⟨hostStep_keyDown_of_stalled (s := s.stalledOn x) hs rfl, hostStep_keyDown_of_down (s := s.stalledOn x) hs,
        hostStep_keyUp (s := s.stalledOn x) hs _⟩⟩

/-! ### Ticks -/

/-- Settles O40: both timers count down, once. -/
theorem timerTick : Obligations.TimerTick := fun s =>
  ⟨fun hs => congrArg _ (if_pos hs), fun hs =>
    ⟨_, hostStep_tick_of_running hs, countDown_toNat s.dt, countDown_toNat s.st, rfl⟩⟩

/-! ### Loading -/

theorem hostLoadProgram_of_tooLong {bytes : List Byte} (hs : s.halted = false) (hlen : maxImage < bytes.length) :
    hostLoadProgram bytes s = s.takeFault .loadError 0 0 := by
  rw [hostLoadProgram, if_neg (by simp [hs]), if_pos hlen]

/-- Settles O42: a longer image takes LoadError, and one that fits is a checked store at `PROG_BASE`. -/
theorem programLoaded : Obligations.ProgramLoaded := by
  intro bytes s
  refine ⟨fun hs => congrArg _ (if_pos hs), fun hs hlen => congrArg _ (hostLoadProgram_of_tooLong hs hlen),
    fun hs hfits => ?_⟩
  obtain ⟨t, hload, hstore⟩ := exists_store_of_loadProgram hs hfits
  obtain ⟨_, rfl⟩ := State.storeBytes_eq_some hstore
  exact ⟨_, hload, rfl, fun a ha => memRead_memWriteBytes_outside ha, fun hwf _ => readByte_of_storeBytes hstore hwf⟩

/-! ### The warm reset -/

/-- The warm reset rewrites the font and leaves every other byte (R171). -/
theorem readByte_hostReset_outside {a : Nat} (ha : a < 0x100 ∨ 0x150 ≤ a) :
    (hostReset s).readByte a = s.readByte a :=
  memRead_memWriteBytes_outside (by rwa [Vector.length_toList])

theorem readByte_hostReset_font (hwf : Memory.wf s.params.font s.mem = true) {j : Nat} (hj : j < fontLen) :
    (hostReset s).readByte (fontBase + j) = s.params.font[j] := by
  have hread := memRead_memWriteBytes_inside (a := fontBase) (k := j) (bs := s.params.font.toList) hwf
    (by rw [Vector.length_toList]; decide) (by rwa [Vector.length_toList])
  exact hread.trans (Vector.getElem_toList _)

/-- The registers after the warm reset: 0, and VF what it held unless `RESET_CLEARS_VF` (R171, D3). -/
theorem readV_hostReset (s : State) (r : Reg) :
    (hostReset s).readV r = if r = regF ∧ s.params.resetClearsVF = false then s.readV regF else 0 := by
  have hF : r = regF ↔ 15 = r.toNat := by rw [← BitVec.toNat_inj, eq_comm]; rfl
  cases hc : s.params.resetClearsVF <;>
    simp [State.readV, hostReset, hc, Vector.getElem_set, hF]

/-- Settles O44: each field is what the reset writes there or, with no write, what the state held. -/
theorem warmReset : Obligations.WarmReset := by
  intro s
  refine ⟨_, rfl, fun r hr => ?_, ?_, rfl, rfl, pixel_blankDisplay, fun _ => readByte_hostReset_outside,
    fun hwf _ => readByte_hostReset_font hwf, rfl, rfl, rfl, rfl, rfl, rfl, rfl, rfl, rfl, rfl, rfl, rfl, rfl⟩
  · rw [readV_hostReset, if_neg fun ⟨hF, _⟩ => hr hF]
  · rw [readV_hostReset]
    cases s.params.resetClearsVF <;> rfl

/-! ### The cold reset -/

theorem zeroState_mem (p : Params) :
    (zeroState p).mem = memWriteBytes p.font [] fontBase (List.replicate fontLen 0) := by
  simp only [zeroState, zeroMemory]

theorem readByte_zeroState_outside (p : Params) {a : Nat} (ha : a < 0x100 ∨ 0x150 ≤ a) :
    (zeroState p).readByte a = unlistedByte p.font a := by
  have hfont : (zeroState p).params.font = p.font := rfl
  rw [State.readByte, zeroState_mem, hfont, memRead_memWriteBytes_outside (by rwa [List.length_replicate]), memRead]

/-- The reset of a zeroed memory leaves the font and zeros, which is what an unlisted address reads as (R35, R170). -/
theorem readByte_hostReset_zeroState (p : Params) (a : Nat) :
    (hostReset (zeroState p)).readByte a = unlistedByte p.font a := by
  by_cases ha : a < 0x100 ∨ 0x150 ≤ a
  · rw [readByte_hostReset_outside ha, readByte_zeroState_outside p ha]
  · obtain ⟨j, rfl⟩ := Nat.exists_eq_add_of_le (Nat.not_lt.mp fun hlt => ha (.inl hlt))
    have hj : j < fontLen := by rw [fontLen]; omega
    exact (readByte_hostReset_font (zeroState_memory_wf p) hj).trans (unlistedByte_font p.font hj).symm

/-- In canonical form that memory is the empty list. -/
theorem hostReset_zeroState_mem (p : Params) : (hostReset (zeroState p)).mem = [] :=
  canonicalMemoriesEqual _ _ _ (hostReset_memory_wf (zeroState_memory_wf p)) Memory.wf_nil
    (readByte_hostReset_zeroState p)

/-- Every register is 0 after the reset of the zero state, VF too whatever `RESET_CLEARS_VF` says (D4). -/
theorem hostReset_zeroState_v (p : Params) : (hostReset (zeroState p)).v = Vector.replicate 16 0 := by
  cases hc : p.resetClearsVF <;> simp [hostReset, zeroState, hc, State.readV]

/-- What the warm reset makes of every field but memory and the registers (R171). -/
theorem hostReset_eq_of_mem_of_v {m : Memory} {v : Vector Byte 16} (hm : (hostReset s).mem = m)
    (hv : (hostReset s).v = v) :
    hostReset s = { State.reset with params := s.params, mem := m, v := v, stack := s.stack, rng := s.rng } := by
  subst hm hv
  rfl

/-- The cold reset is the state after reset, with the machine's own parameters (R37, R170). -/
theorem hostInit_eq (s : State) : hostInit s = { State.reset with params := s.params } := by
  have hreset := hostReset_eq_of_mem_of_v (s := zeroState s.params) (hostReset_zeroState_mem s.params)
    (hostReset_zeroState_v s.params)
  rw [hostInit, hreset]
  simp only [zeroState, State.reset]

/-- Settles O45: of that state every clause can be read off. -/
theorem coldReset : Obligations.ColdReset := fun s =>
  ⟨_, congrArg Host.Outcome.next (hostInit_eq s), rfl, fun _ => unlistedByte_font s.params.font,
    fun _ => unlistedByte_outside s.params.font, fun _ => Vector.getElem_replicate _, rfl, rfl, rfl, rfl, rfl,
    pixel_blankDisplay, rfl, rfl, rfl, rfl, rfl, rfl, rfl, rfl⟩

end Sys2Proof.Machine
end

section
/-! Dead slots of the call stack (10_state.md section 7): what is in them changes no transition, a cycle or a host
operation (O53). -/

namespace Sys2Proof.Machine

open Sys2Proof.Config

variable {s t s' t' : State} {i : Instr} {stack : Vector Word stackDepth}

/-- `s` with another call stack under the same sp. -/
def State.withStack (s : State) (stack : Vector Word stackDepth) : State := { s with stack := stack }

/-- Every slot in use is the same in `stack` as in `s`. -/
def State.LiveSlotsAgree (s : State) (stack : Vector Word stackDepth) : Prop :=
  ∀ k (h : k < 16), k < s.sp.val → stack[k]'h = s.stack[k]'h

theorem sameButDeadSlots_withStack (h : s.LiveSlotsAgree stack) : s.SameButDeadSlots (s.withStack stack) := ⟨rfl, h⟩

theorem State.SameButDeadSlots.exists_withStack (h : s.SameButDeadSlots t) :
    ∃ stack, t = s.withStack stack ∧ s.LiveSlotsAgree stack := ⟨_, h⟩

theorem State.LiveSlotsAgree.of_stack_eq (h : s.LiveSlotsAgree stack) (hstack : t.stack = s.stack ∧ t.sp = s.sp) :
    t.LiveSlotsAgree stack := by
  obtain ⟨hslots, hsp⟩ := hstack
  intro k hk hlt
  simp only [hslots]
  exact h k hk (hsp ▸ hlt)

/-! ### The execute phase -/

theorem State.skipIf_withStack (s : State) (c : Bool) :
    (s.withStack stack).skipIf c = (s.skipIf c).withStack stack := by
  cases c <;> rfl

/-- Whether a fatal condition is raised depends on sp but on no slot of the stack (R187, R188). -/
theorem fatal_withStack_iff : (s.withStack stack).Fatal i ↔ s.Fatal i := by cases i <;> rfl

/-- An instruction that does not have the stack in its footprint does the same whatever is in the stack, and leaves it
there. -/
theorem exec_withStack (hno : (footprint i s).stack = false) (h : exec i s = .next t) :
    exec i (s.withStack stack) = .next (t.withStack stack) := by
  by_cases hf : s.Fatal i
  · cases (exec_of_fatal hf).symm.trans h
    exact exec_of_fatal (fatal_withStack_iff.mpr hf)
  cases i
  case call | ret => cases hno
  case seImm | sneImm | seReg | sneReg =>
    cases h
    exact congrArg _ (State.skipIf_withStack ..)
  case skp =>
    cases (exec_skp_of_key (Nat.not_lt.mp hf)).symm.trans h
    exact (exec_skp_of_key (s := s.withStack stack) (Nat.not_lt.mp hf)).trans (congrArg _ (State.skipIf_withStack ..))
  case sknp =>
    cases (exec_sknp_of_key (Nat.not_lt.mp hf)).symm.trans h
    exact (exec_sknp_of_key (s := s.withStack stack) (Nat.not_lt.mp hf)).trans (congrArg _ (State.skipIf_withStack ..))
  case drw x y n =>
    have hfits : n.toNat = 0 ∨ s.base + n.toNat - 1 ≤ 0xFFF := by
      rw [State.Fatal] at hf
      omega
    cases (exec_drw_of_fits hfits rfl rfl).symm.trans h
    exact exec_drw_of_fits (s := s.withStack stack) hfits rfl rfl
  case ldBVx x =>
    have hfits : s.base + (decimalDigits (s.readV x)).length ≤ memSize := Nat.succ_le_succ (Nat.not_lt.mp hf)
    cases (exec_ldBVx_of_store (State.storeBytes_of_ok (.inr hfits))).symm.trans h
    exact exec_ldBVx_of_store (State.storeBytes_of_ok (s := s.withStack stack) (.inr hfits))
  case ldMemVx =>
    cases (exec_ldMemVx_of_fits (Nat.not_lt.mp hf)).symm.trans h
    exact exec_ldMemVx_of_fits (s := s.withStack stack) (Nat.not_lt.mp hf)
  case ldVxMem =>
    cases (exec_ldVxMem_of_fits (Nat.not_lt.mp hf)).symm.trans h
    exact exec_ldVxMem_of_fits (s := s.withStack stack) (Nat.not_lt.mp hf)
  all_goals
    cases h
    rfl

/-- A call pushes the same address on both stacks (R103). -/
theorem exec_call_sameButDeadSlots {nnn : Addr12} (hlive : s.LiveSlotsAgree stack) (hroom : s.sp.val < 16)
    (hs : exec (.call nnn) s = .next s') (ht : exec (.call nnn) (s.withStack stack) = .next t') :
    s'.SameButDeadSlots t' := by
  have hpush := State.push_of_lt s.pc hroom
  have hpush' := State.push_of_lt (s := s.withStack stack) s.pc hroom
  cases (exec_call_of_push nnn hpush).symm.trans hs
  cases (exec_call_of_push nnn hpush').symm.trans ht
  refine sameButDeadSlots_withStack fun k hk hlt => ?_
  rcases Nat.eq_or_lt_of_le (Nat.le_of_lt_succ hlt) with rfl | hlt
  · exact (Vector.getElem_set_self _).trans (Vector.getElem_set_self _).symm
  · have hne := Nat.ne_of_lt hlt
    exact (State.push_stack_of_ne hpush' hk hne).trans
      ((hlive k hk hlt).trans (State.push_stack_of_ne hpush hk hne).symm)

/-- A return pops a slot in use, which holds the same address in both stacks (R101). -/
theorem exec_ret_sameButDeadSlots (hlive : s.LiveSlotsAgree stack) (hpos : 0 < s.sp.val)
    (hs : exec .ret s = .next s') (ht : exec .ret (s.withStack stack) = .next t') : s'.SameButDeadSlots t' := by
  cases (exec_ret_of_pop (State.pop_of_pos hpos)).symm.trans hs
  cases (exec_ret_of_pop (State.pop_of_pos (s := s.withStack stack) hpos)).symm.trans ht
  have htop := hlive (s.sp.val - 1) (by have := s.sp.isLt; omega) (Nat.sub_lt hpos Nat.one_pos)
  refine ⟨?_, fun k hk hlt => hlive k hk (Nat.lt_of_lt_of_le hlt (Nat.sub_le _ 1))⟩
  exact congrArg (fun w => State.jumpTo { s.withStack stack with sp := ⟨s.sp.val - 1, by omega⟩ } w) htop

theorem exec_sameButDeadSlots (hlive : s.LiveSlotsAgree stack) (hs : exec i s = .next s')
    (ht : exec i (s.withStack stack) = .next t') : s'.SameButDeadSlots t' := by
  by_cases hf : s.Fatal i
  · cases (exec_of_fatal hf).symm.trans hs
    cases (exec_of_fatal (fatal_withStack_iff.mpr hf)).symm.trans ht
    exact sameButDeadSlots_withStack hlive
  cases hfoot : (footprint i s).stack
  case false =>
    cases (exec_withStack hfoot hs).symm.trans ht
    exact sameButDeadSlots_withStack (hlive.of_stack_eq ((exec_frame hs).stack hfoot))
  case true =>
    cases i
    case call => exact exec_call_sameButDeadSlots hlive (State.room_of_not_fatal_call hf) hs ht
    case ret => exact exec_ret_sameButDeadSlots hlive (Nat.pos_of_ne_zero hf) hs ht
    all_goals cases hfoot

/-! ### The cycle and the host's operations -/

theorem step_sameButDeadSlots (hlive : s.LiveSlotsAgree stack) (hs : step s = .next s')
    (ht : step (s.withStack stack) = .next t') : s'.SameButDeadSlots t' := by
  rcases step_cases s with ⟨hstop, e⟩ | ⟨hhalted, hwait, ⟨hfetch, e⟩ | ⟨w, hfetch, ⟨r, hr, e⟩ | ⟨i, hi, e⟩⟩⟩
  · cases e.symm.trans hs
    cases (haltedOrStalledCycleDoesNothing (s.withStack stack) hstop).symm.trans ht
    exact sameButDeadSlots_withStack hlive
  · cases e.symm.trans hs
    cases (step_of_noFetch (s := s.withStack stack) hhalted hwait hfetch).symm.trans ht
    exact sameButDeadSlots_withStack hlive
  · cases e.symm.trans hs
    cases (step_of_illegal (s := s.withStack stack) hhalted hwait hfetch hr).symm.trans ht
    exact sameButDeadSlots_withStack hlive
  · have e' := step_of_legal (s := s.withStack stack) hhalted hwait hfetch hi
    exact exec_sameButDeadSlots (s := s.advancePc) hlive (e.symm.trans hs) (e'.symm.trans ht)

/-- The operation does the same whatever is in the stack, and writes neither the stack nor sp. -/
def KeepsStack (op : State → State) : Prop :=
  ∀ s stack, op (s.withStack stack) = (op s).withStack stack ∧ (op s).stack = s.stack ∧ (op s).sp = s.sp

theorem KeepsStack.sameButDeadSlots {op : State → State} (h : KeepsStack op) (hlive : s.LiveSlotsAgree stack) :
    (op s).SameButDeadSlots (op (s.withStack stack)) := by
  obtain ⟨hsame, hstack⟩ := h s stack
  rw [hsame]
  exact sameButDeadSlots_withStack (hlive.of_stack_eq hstack)

theorem hostLoadProgram_keepsStack (bytes : List Byte) : KeepsStack (hostLoadProgram bytes) := by
  intro s stack
  cases hhalted : s.halted
  · by_cases hlen : bytes.length > maxImage <;> simp [hostLoadProgram, State.withStack, State.takeFault, hhalted, hlen]
  · simp [hostLoadProgram, State.withStack, hhalted]

theorem hostTick_keepsStack : KeepsStack hostTick := by
  intro s stack
  cases hhalted : s.halted <;> simp [hostTick, State.withStack, hhalted]

theorem hostSetKeyState_keepsStack (k : BitVec 4) (isDown : Bool) : KeepsStack (hostSetKeyState k isDown) := by
  intro s stack
  cases hhalted : s.halted
  · by_cases hedge : isDown = true ∧ s.keys.getLsbD k.toNat = false ∧ s.waitKey = true
    · obtain ⟨rfl, hup, hwait⟩ := hedge
      rw [hostSetKeyState_downEdge hhalted hup hwait,
        hostSetKeyState_downEdge (s := s.withStack stack) hhalted hup hwait]
      exact ⟨rfl, rfl, rfl⟩
    · rw [hostSetKeyState_noEdge hhalted hedge, hostSetKeyState_noEdge (s := s.withStack stack) hhalted hedge]
      exact ⟨rfl, rfl, rfl⟩
  · simp [hostSetKeyState, State.withStack, hhalted]

/-- Settles O53: the cold reset keeps nothing of the stack, the warm reset empties it, the host's other operations leave it
alone, and a cycle reads a slot only by a return, which pops one in use. -/
theorem deadStackSlotsUnobservable : Obligations.DeadStackSlotsUnobservable := by
  intro op s t s' t' hsame hs ht
  obtain ⟨stack, rfl, hlive⟩ := hsame.exists_withStack
  cases op
  case cycle => exact step_sameButDeadSlots hlive hs ht
  all_goals
    cases hs
    cases ht
  case init => exact ⟨rfl, fun _ _ _ => rfl⟩
  case reset => exact ⟨rfl, nofun⟩
  case loadProgram bytes => exact (hostLoadProgram_keepsStack bytes).sameButDeadSlots hlive
  case tick => exact hostTick_keepsStack.sameButDeadSlots hlive
  case setKeyState k isDown => exact (hostSetKeyState_keepsStack k isDown).sameButDeadSlots hlive

end Sys2Proof.Machine
end
